-- ==== Sys2Proof/Word.lean ====
section
/-! DEFINITION. The fixed-width values of the spec (00_scope.md R7): every one an unsigned bit vector, bit 0 the
least significant (R8). -/

namespace Sys2Proof

/-- A command word, `CMD_W` = 32 bits (R7, R50). -/
abbrev Word := BitVec 32

/-- A data block, `BLOCK_W` = 12 bits (R7); also the width of `RESULT` (R24) and of the field `D` (R51). -/
abbrev Block := BitVec 12

/-- A half-block, `HALF_W` = 6 bits (R7). -/
abbrev HalfBlock := BitVec 6

/-- A master key, `MKEY_W` = 9 bits (R7). -/
abbrev MasterKey := BitVec 9

/-- A round key, `RK_W` = 8 bits (R7, 90_conflicts.md C1); also the width of the expander's output. -/
abbrev RoundKey := BitVec 8

/-- The field `N`, a round count or a round-key index, 4 bits (R51, R53). -/
abbrev Index := BitVec 4

end Sys2Proof
end

