-- ==== Sys2Proof/Machine/Datapath.lean ====
section
/-! DEFINITION. The datapath functions of the cipher (40_round_datapath.md section 1, 42_encrypt_decrypt.md section 1):
total, stateless functions of their arguments (R14, R70, R71). -/

namespace Sys2Proof.Machine

/-- `Expand` (R64), by its masks and shifts. -/
def expand (h : HalfBlock) : BitVec 8 :=
  let h8 := h.setWidth 8
  ((h8 &&& 0x30) <<< 2) ||| ((h8 &&& 0x04) <<< 3) ||| ((h8 &&& 0x08) <<< 1)
    ||| ((h8 &&& 0x04) <<< 1) ||| ((h8 &&& 0x08) >>> 1) ||| (h8 &&& 0x03)

/-- The constant table `S1` (R25). -/
def tableS1 : Vector (BitVec 3) 16 := #v[5, 2, 1, 6, 3, 4, 7, 0, 1, 4, 6, 2, 0, 7, 5, 3]

/-- The constant table `S2` (R25). -/
def tableS2 : Vector (BitVec 3) 16 := #v[4, 0, 6, 5, 7, 1, 3, 2, 5, 3, 0, 7, 6, 2, 1, 4]

/-- `S1[j]` (R65): every 4-bit index is in range. -/
def lookupS1 (j : BitVec 4) : BitVec 3 := tableS1[j.toFin]

/-- `S2[j]` (R65). -/
def lookupS2 (j : BitVec 4) : BitVec 3 := tableS2[j.toFin]

/-- `Sbox` (R66): the left nibble through `S1`, the right nibble through `S2`. -/
def sbox (y : BitVec 8) : HalfBlock := lookupS1 (y.extractLsb' 4 4) ++ lookupS2 (y.extractLsb' 0 4)

/-- `Feistel` (R67): expander, key mix, substitution. -/
def feistel (h : HalfBlock) (k : RoundKey) : HalfBlock := sbox (expand h ^^^ k)

/-- The left half of a block, bits 11:6 (R36, R68). -/
def leftHalf (s : Block) : HalfBlock := s.extractLsb' 6 6

/-- The right half of a block, bits 5:0 (R36, R68). -/
def rightHalf (s : Block) : HalfBlock := s.extractLsb' 0 6

/-- `FeistelRound` (R68). -/
def feistelRound (s : Block) (k : RoundKey) : Block :=
  rightHalf s ++ (leftHalf s ^^^ feistel (rightHalf s) k)

/-- `FinalPerm` (R69): the halves change places. -/
def finalPerm (s : Block) : Block := rightHalf s ++ leftHalf s

/-- `Enc` (R84) over the round keys of the `n` rounds, the key of round 0 first. -/
def enc (plain : Block) (keys : List RoundKey) : Block := finalPerm (keys.foldl feistelRound plain)

/-- `Dec` (R85): the same rounds with the same keys in reverse order. -/
def dec (cipher : Block) (keys : List RoundKey) : Block := finalPerm (keys.reverse.foldl feistelRound cipher)

end Sys2Proof.Machine
end

