-- ==== Sys2Proof/Syntax.lean ====
section
/-! DEFINITION. The command set SDES12-CMD version 1 (30_encoding.md R52, R54, R62) and the lines of its assembler
(R61 to R63). -/

namespace Sys2Proof

/-- One constructor per row of spec/opcode_table.json, its operands exactly as wide as R54 gives them: the bits of the
word that must be zero (R55) are no operand, so no term of this type holds a one there. -/
inductive Instr where
  /-- `NOP` (R90) -/
  | nop
  /-- `KEYGEN n, key9` (R80) -/
  | keygen (n : Index) (key : MasterKey)
  /-- `ENCRYPT n, block12` (R88) -/
  | encrypt (n : Index) (plain : Block)
  /-- `DECRYPT n, block12` (R89) -/
  | decrypt (n : Index) (cipher : Block)
  /-- `WRKEY idx, key8` (R81) -/
  | wrkey (idx : Index) (key : RoundKey)
  /-- `RDKEY idx` (R82) -/
  | rdkey (idx : Index)
  /-- `EXPAND half6` (R72) -/
  | expand (half : HalfBlock)
  /-- `SUBST byte8` (R73) -/
  | subst (byte : BitVec 8)
  /-- `ROUNDF idx, half6` (R74) -/
  | roundf (idx : Index) (half : HalfBlock)
  /-- `ROUND idx, block12` (R75) -/
  | round (idx : Index) (block : Block)
  /-- `FPERM block12` (R76) -/
  | fperm (block : Block)
deriving DecidableEq, Repr

/-- The mnemonics of R52, in the order of their opcodes. -/
inductive Mnemonic where
  | nop | keygen | encrypt | decrypt | wrkey | rdkey | expand | subst | roundf | round | fperm
deriving DecidableEq, Repr

/-- The mnemonic a command is written with. -/
def Instr.mnemonic : Instr → Mnemonic
  | .nop => .nop
  | .keygen _ _ => .keygen
  | .encrypt _ _ => .encrypt
  | .decrypt _ _ => .decrypt
  | .wrkey _ _ => .wrkey
  | .rdkey _ => .rdkey
  | .expand _ => .expand
  | .subst _ => .subst
  | .roundf _ _ => .roundf
  | .round _ _ => .round
  | .fperm _ => .fperm

/-- One line of an assembler program after its label and comment are taken off (R61). Operands are the numbers as they
are written, of any size: whether they fit their fields is the check of `Source.wellFormed`. -/
inductive Source where
  /-- a mnemonic and its operands (R62) -/
  | command (m : Mnemonic) (operands : List Nat)
  /-- the pseudo-instruction `LOADKEYS k0, k1, ...` (R63) -/
  | loadKeys (keys : List Nat)
  /-- the directive `.word v` (R61) -/
  | word (v : Nat)
deriving DecidableEq, Repr

end Sys2Proof
end

