-- ==== Sys2Proof/WellFormed.lean ====
section
/-! DEFINITION. Which terms are well formed: the operand checks of the assembler (30_encoding.md R62, R63). A term of
`Instr` has operands of exactly the widths of R54, so every one of them is well formed; in particular a count above 9
or an index above 8 is a well-formed command that raises an error when it runs (R60). -/

namespace Sys2Proof

/-- A literal fits a field of `width` bits: an assembler refuses a wider one and never truncates it (R62). -/
def fitsField (width v : Nat) : Bool := decide (v < 2 ^ width)

/-- The widths of a mnemonic's operands, in the order it writes them (R54, R62). -/
def Mnemonic.operandWidths : Mnemonic → List Nat
  | .nop => []
  | .keygen => [4, 9]
  | .encrypt => [4, 12]
  | .decrypt => [4, 12]
  | .wrkey => [4, 8]
  | .rdkey => [4]
  | .expand => [6]
  | .subst => [8]
  | .roundf => [4, 6]
  | .round => [4, 12]
  | .fperm => [12]

/-- As many literals as fields, each fitting its own (R62). -/
def operandsFit : List Nat → List Nat → Bool
  | [], [] => true
  | width :: widths, v :: vs => fitsField width v && operandsFit widths vs
  | [], _ :: _ => false
  | _ :: _, [] => false

/-- The assembler's check of one line: R62 for a command, R63 for `LOADKEYS` (one to nine 8-bit keys), R61 for a
32-bit `.word`. -/
def Source.wellFormed : Source → Bool
  | .command m operands => operandsFit m.operandWidths operands
  | .loadKeys keys => decide (1 ≤ keys.length) && decide (keys.length ≤ 9) && keys.all (fitsField 8)
  | .word v => fitsField 32 v

/-- The operands of a command, as the numbers an assembler line writes (R62). -/
def Instr.operands : Instr → List Nat
  | .nop => []
  | .keygen n key => [n.toNat, key.toNat]
  | .encrypt n plain => [n.toNat, plain.toNat]
  | .decrypt n cipher => [n.toNat, cipher.toNat]
  | .wrkey idx key => [idx.toNat, key.toNat]
  | .rdkey idx => [idx.toNat]
  | .expand half => [half.toNat]
  | .subst byte => [byte.toNat]
  | .roundf idx half => [idx.toNat, half.toNat]
  | .round idx block => [idx.toNat, block.toNat]
  | .fperm block => [block.toNat]

/-- A command is well formed when its assembler line is (R62). Every term of `Instr` is: `Laws.instr_wellFormed`. -/
def Instr.wellFormed (i : Instr) : Bool := (Source.command i.mnemonic i.operands).wellFormed

end Sys2Proof
end

