-- ==== Sys2Proof/Decode.lean ====
section
/-! DEFINITION. The command word (30_encoding.md): its fields (R51), `Decode` (R57), total on every word and answering
`none` for ILLEGAL, the encoder (R62), and the opcode table as mask and match rows (R57). -/

namespace Sys2Proof

/-- `OP`, bits 31:28 (R51). -/
def opField (w : Word) : BitVec 4 := w.extractLsb' 28 4

/-- `N`, bits 27:24 (R51). -/
def nField (w : Word) : BitVec 4 := w.extractLsb' 24 4

/-- `Z`, bits 23:12, zero in every command (R51, R55). -/
def zField (w : Word) : BitVec 12 := w.extractLsb' 12 12

/-- `D`, bits 11:0 (R51). -/
def dField (w : Word) : BitVec 12 := w.extractLsb' 0 12

/-- The low `width` bits of `D`, the operand, when the bits of `D` above it are all zero (R54, R55). -/
def dOperand (width : Nat) (w : Word) : Option (BitVec width) :=
  if (dField w).toNat < 2 ^ width then some ((dField w).setWidth width) else none

/-- `N` must be zero (R55): `NOP`, `EXPAND`, `SUBST`, `FPERM`. -/
def requireZeroN (w : Word) (i : Option Instr) : Option Instr := if nField w = 0 then i else none

/-- The case table of R57, the word's `Z` being zero. -/
def decodeOp (w : Word) : Option Instr :=
  match (opField w).toNat with
  | 0x0 => requireZeroN w ((dOperand 0 w).map fun _ => .nop)
  | 0x1 => (dOperand 9 w).map (.keygen (nField w))
  | 0x2 => (dOperand 12 w).map (.encrypt (nField w))
  | 0x3 => (dOperand 12 w).map (.decrypt (nField w))
  | 0x4 => (dOperand 8 w).map (.wrkey (nField w))
  | 0x5 => (dOperand 0 w).map fun _ => .rdkey (nField w)
  | 0x6 => requireZeroN w ((dOperand 6 w).map .expand)
  | 0x7 => requireZeroN w ((dOperand 8 w).map .subst)
  | 0x8 => (dOperand 6 w).map (.roundf (nField w))
  | 0x9 => (dOperand 12 w).map (.round (nField w))
  | 0xA => requireZeroN w ((dOperand 12 w).map .fperm)
  | _ => none

/-- `Decode` (R57). `none` is ILLEGAL: the word completes with the error `ILLEGAL_CMD` (R94). It depends on the word
alone (R59). -/
def decode (w : Word) : Option Instr := if zField w = 0 then decodeOp w else none

/-- Format `C` from its fields (R51), `Z` zero. -/
def formatC (op n : BitVec 4) (d : BitVec 12) : Word := op ++ n ++ 0#12 ++ d

/-- The word of a command (R62). -/
def encode : Instr → Word
  | .nop => formatC 0x0 0 0
  | .keygen n key => formatC 0x1 n (key.setWidth 12)
  | .encrypt n plain => formatC 0x2 n plain
  | .decrypt n cipher => formatC 0x3 n cipher
  | .wrkey idx key => formatC 0x4 idx (key.setWidth 12)
  | .rdkey idx => formatC 0x5 idx 0
  | .expand half => formatC 0x6 0 (half.setWidth 12)
  | .subst byte => formatC 0x7 0 (byte.setWidth 12)
  | .roundf idx half => formatC 0x8 idx (half.setWidth 12)
  | .round idx block => formatC 0x9 idx block
  | .fperm block => formatC 0xA 0 block

/-- One row of the opcode table: the bits it fixes and their values (R57). -/
structure OpcodeRow where
  mnemonic : Mnemonic
  mask : Word
  pattern : Word
deriving DecidableEq, Repr

/-- spec/opcode_table.json, row by row. -/
def opcodeTable : List OpcodeRow :=
  [ ⟨.nop, 0xFFFFFFFF, 0x00000000⟩,
    ⟨.keygen, 0xF0FFFE00, 0x10000000⟩,
    ⟨.encrypt, 0xF0FFF000, 0x20000000⟩,
    ⟨.decrypt, 0xF0FFF000, 0x30000000⟩,
    ⟨.wrkey, 0xF0FFFF00, 0x40000000⟩,
    ⟨.rdkey, 0xF0FFFFFF, 0x50000000⟩,
    ⟨.expand, 0xFFFFFFC0, 0x60000000⟩,
    ⟨.subst, 0xFFFFFF00, 0x70000000⟩,
    ⟨.roundf, 0xF0FFFFC0, 0x80000000⟩,
    ⟨.round, 0xF0FFF000, 0x90000000⟩,
    ⟨.fperm, 0xFFFFF000, 0xA0000000⟩ ]

/-- The word carries the row's fixed bits (R57). -/
abbrev OpcodeRow.covers (r : OpcodeRow) (w : Word) : Prop := w &&& r.mask = r.pattern

/-- The decoder on the table's numbering of an instruction's bits: a command is one 32-bit word (R50), so the low
`nbits` bits of `w` are that word, and a number that does not fit one word is no command. -/
def decodeTableWord (nbits w : Nat) : Option Instr :=
  if w % 2 ^ nbits < 2 ^ 32 then decode (BitVec.ofNat 32 (w % 2 ^ nbits)) else none

end Sys2Proof
end

