-- ==== Sys2Proof/Config.lean ====
section
/-! DEFINITION. What an implementation fixes and what the spec leaves open. An `opaque` constant has no body: nothing
can evaluate it, so what is proved holds for every value of it. -/

namespace Sys2Proof

/-- `NMAX`, the maximum round count, and the number of entries of the round-key file (R7). -/
def Config.nMax : Nat := 9

/-- The OPEN parameter `KS_SIGNED_LEFT_MASK` (R7, R78; 92_eei_decisions.md D9), log 1. The spec's default is `false`;
being opaque it stands for both values, as R78 asks of a claim that does not fix it. -/
opaque Config.ksSignedLeftMask : Bool

/-- `LAT_MAX` less one, whatever it is (R118), log 2. -/
opaque Config.latMaxLessOne : Nat

/-- The latency of an accepted word before it is brought into the range of R118, log 2. The second argument counts
the draws, so that two acceptances of one word may take different times. -/
opaque Config.latencySeed : Word → Nat → Nat

/-- `LAT_MAX` (R118): a constant of the implementation, at least 1. -/
def Config.latMax : Nat := Config.latMaxLessOne + 1

/-- `LAT(cmd)` (R7, R118): any integer from 1 to `LAT_MAX`, for each accepted command. -/
def Config.latency (w : Word) (draw : Nat) : Nat := Config.latencySeed w draw % Config.latMax + 1

/-- The unspecified contents of `RK[i]` after a reset edge, and of `RK[i]` for `i ≥ n` after `KEYGEN n`
(R80, R108; 93_implementation_defined.md item 8), log 6. -/
opaque Config.freeRoundKey : Nat → Nat → RoundKey

/-- The unspecified contents of `CMD` between commands (93_implementation_defined.md item 10), log 7. -/
opaque Config.freeCmd : Nat → Word

/-- The unspecified contents of `RC` wherever the spec fixes none (R28; 93 item 10), log 7. -/
opaque Config.freeRc : Nat → BitVec 4

/-- The unspecified contents of `ST` wherever the spec fixes none (R29; 93 item 10), log 7. -/
opaque Config.freeSt : Nat → Block

/-- What the `result` output reads while `BUSY = 1` (R43; 93 item 9), log 8. -/
opaque Config.freeResult : Nat → BitVec 12

/-- What the `RKV` field of `status` reads while `BUSY = 1` (R43; 93 item 9), log 8. -/
opaque Config.freeRkv : Nat → BitVec 9

end Sys2Proof
end

