-- ==== Sys2Proof/Machine/State.lean ====
section
/-! DEFINITION. The state of one SDES12 engine (10_state.md R15, R27 to R29), what the host drives on its input ports
(R30), the state after reset (R33), and the reasons a step can stop. Plain data. -/

namespace Sys2Proof.Machine

/-- What the host drives on the input ports at one rising edge of `clk` (R30). -/
structure PortSample where
  /-- `rst`: synchronous reset, active high -/
  rst : Bool
  /-- `cmd_valid`: a command is presented on `cmd` -/
  cmdValid : Bool
  /-- `cmd`: the command word -/
  cmd : Word
deriving DecidableEq, Repr

/-- The ports of a host that presents nothing and does not reset. -/
def PortSample.idle : PortSample := ⟨false, false, 0⟩

/-- How a command completes: the codes of `STATUS.ERR` (60_exceptions.md R94). -/
inductive Completion where
  /-- the command completed as its rule says -/
  | ok
  /-- `ROUNDS_RANGE`: a round count above 9 -/
  | roundsRange
  /-- `KEY_INVALID`: a needed round key is not valid -/
  | keyInvalid
  /-- `INDEX_RANGE`: a key index above 8 -/
  | indexRange
  /-- `ILLEGAL_CMD`: `Decode` returns ILLEGAL -/
  | illegalCmd
deriving DecidableEq, Repr

/-- The reasons a step could stop with a fault: none. The engine has no traps, and an error does not stop it (R99): it
is a completion code in a next state. Nothing raises a fault, so there is no constructor (log 10). -/
inductive Fault where
deriving DecidableEq, Repr

/-- The reasons a step could be refused. -/
inductive Refusal where
  /-- An instruction whose meaning is not written. Raised by an arm of `exec` only; every instruction has its meaning,
  so no arm raises it. Safe: the run stops. -/
  | notModelled (mnemonic : String)
deriving DecidableEq, Repr

/-- The state of one engine and of the host's side of its ports. -/
structure State where
  /-- `BUSY` (R18) -/
  busy : Bool
  /-- `DONE` (R19) -/
  done : Bool
  /-- `ERR`, the completion code of the most recent command (R20, R94) -/
  err : BitVec 3
  /-- `RK[0..8]`, the round-key file (R22) -/
  rk : Vector RoundKey 9
  /-- `RKV[0..8]`, the valid bits: bit `i` is `RKV[i]` (R23, R21) -/
  rkv : BitVec 9
  /-- `RESULT` (R24) -/
  result : Block
  /-- `CMD`, hidden: the word latched at acceptance (R27) -/
  cmd : Word
  /-- `RC`, hidden: the round counter (R28) -/
  rc : BitVec 4
  /-- `ST`, hidden: the working block (R29) -/
  st : Block
  /-- The rising edges left before the command in flight has completed, the completing one counted; 0 while idle
  (R41, R118). -/
  wait : Nat
  /-- The model's own: how many times free values were drawn (log 9). -/
  draws : Nat
  /-- What the host drives at the coming rising edges, the next one first; past the end it drives
  `PortSample.idle` (log 4). -/
  inputs : List PortSample
deriving DecidableEq, Repr

/-- The state right after reset (R33, R108). `RK`, `CMD`, `RC` and `ST` have no reset value in the spec: the zeros are
the model's, log 5. `wait`, `draws` and `inputs` are the model's: an idle engine, nothing drawn, a silent host. -/
def State.reset : State where
  busy := false
  done := false
  err := 0
  rk := Vector.replicate 9 0
  rkv := 0
  result := 0
  cmd := 0
  rc := 0
  st := 0
  wait := 0
  draws := 0
  inputs := []

/-- What a step or a meaning answers. -/
abbrev Answer := Host.Outcome State Fault Refusal

end Sys2Proof.Machine
end

