-- ==== Sys2Proof/Machine/Flags.lean ====
section
/-! DEFINITION. The completion codes and the outputs: `cmd_ready`, the status word and `result` (10_state.md R20, R21,
R24, R31; 60_exceptions.md R94). An output is a function of the state and reading it changes nothing (R32, R48). -/

namespace Sys2Proof.Machine

/-- The code written to `STATUS.ERR` (R94). Codes 5, 6 and 7 are never written. -/
def Completion.code : Completion → BitVec 3
  | .ok => 0
  | .roundsRange => 1
  | .keyInvalid => 2
  | .indexRange => 3
  | .illegalCmd => 4

/-- What the host drives at the next rising edge. -/
def State.pins (s : State) : PortSample := s.inputs.headD PortSample.idle

/-- The output `cmd_ready` (R31). -/
def cmdReady (s : State) : Bool := !s.busy && !s.pins.rst

/-- The `RKV` field of the status word: unspecified while `BUSY = 1` (R21, R43), log 8. -/
def rkvOutput (s : State) : BitVec 9 := if s.busy then Config.freeRkv s.draws else s.rkv

/-- The output `status`, field by field from bit 31 down (R21): reserved zeros, `RKV`, reserved zeros, `ERR`, `DONE`,
`BUSY`. -/
def statusOutput (s : State) : BitVec 32 :=
  0#7 ++ rkvOutput s ++ 0#11 ++ s.err ++ BitVec.ofBool s.done ++ BitVec.ofBool s.busy

/-- The output `result`: `RESULT`, unspecified while `BUSY = 1` (R24, R43), log 8. -/
def resultOutput (s : State) : BitVec 12 := if s.busy then Config.freeResult s.draws else s.result

end Sys2Proof.Machine
end

