-- ==== Sys2Proof/Machine/KeySchedule.lean ====
section
/-! DEFINITION. The key-schedule function (41_key_schedule.md section 1). -/

namespace Sys2Proof.Machine

/-- `MASK_R`, the master mask (R26). -/
def maskR : BitVec 9 := 0x1FE

/-- `MASK_L`, the left mask (R26). -/
def maskL : BitVec 16 := 0xFC00

/-- `LMASK(i)` (R77, R78): shifted with zeros, or with sign fill when `KS_SIGNED_LEFT_MASK` holds. -/
def leftMask (signedMask : Bool) (i : Nat) : BitVec 16 :=
  if signedMask then maskL.sshiftRight i else maskL >>> i

/-- `KeySched(K, i)` (R77) for `i` in 0..8, the parameter `KS_SIGNED_LEFT_MASK` an argument (R78). -/
def keySched (signedMask : Bool) (key : MasterKey) (i : Nat) : RoundKey :=
  let right := key.setWidth 16 &&& (maskR.setWidth 16 >>> i)
  if i = 0 then (right >>> 1).setWidth 8
  else
    let left := key.setWidth 16 &&& leftMask signedMask i
    ((left >>> (10 - i)) ||| (right <<< (i - 1))).setWidth 8

/-- Round key `i` of this engine: `KeySched` under its `KS_SIGNED_LEFT_MASK`. Below index 8 both readings give the same
key (R78), so the parameter is asked for at index 8 alone and the others can be computed; the law `scheduleKey_eq` says that
this is `keySched Config.ksSignedLeftMask` throughout. -/
def scheduleKey (key : MasterKey) (i : Nat) : RoundKey :=
  if i < 8 then keySched false key i else keySched Config.ksSignedLeftMask key i

end Sys2Proof.Machine
end

