-- ==== Sys2Proof/Machine/Ops.lean ====
section
/-! DEFINITION. What happens to the state at an edge (20_memory.md R39 to R44, 70_reset_and_hazards.md R108) and the
operations the command rules are written in: complete and raise (00_scope.md R12), the round-key file (10_state.md R22,
R23) and the result register (R24). -/

namespace Sys2Proof.Machine

/-- `RKV[i]` (R23). -/
def keyValid (s : State) (i : Nat) : Bool := s.rkv.getLsbD i

/-- `KeysValid(n)` (R86). -/
def keysValid (s : State) (n : Nat) : Bool := (List.range n).all (keyValid s)

/-- `RKV` with exactly the entries below `n` valid (R80). -/
def validBelow (n : Nat) : BitVec 9 := ~~~(BitVec.allOnes 9 <<< n)

/-- The hidden registers `RC` and `ST` take values the spec does not fix (R28, R29), log 7. -/
def scrambleLoop (s : State) : State :=
  { s with rc := Config.freeRc s.draws, st := Config.freeSt s.draws, draws := s.draws + 1 }

/-- A command completes with a code (R41, R19, R20): `BUSY <- 0`, `DONE <- 1`, `ERR <- code`, no edge left to wait for.
The hidden registers are then as they are between commands: any value (93_implementation_defined.md item 10). -/
def complete (c : Completion) (s : State) : State :=
  { scrambleLoop s with busy := false, done := true, err := c.code, wait := 0, cmd := Config.freeCmd s.draws }

/-- `raise E` (R12, R96): the command completes with the error's code and changes no other architectural state. This is
the engine's whole exception mechanism: it has no trap, handler or return (R99, R100). -/
def raise (c : Completion) (s : State) : Answer := .next (complete c s)

/-- `RESULT <- zext_12(v); complete` (R24). -/
def returnValue {w : Nat} (v : BitVec w) (s : State) : Answer :=
  .next (complete .ok { s with result := v.setWidth 12 })

/-- `RK[i] <- k; RKV[i] <- 1` (R81) for an index `i` in range. -/
def writeKey (i : Fin 9) (k : RoundKey) (s : State) : State :=
  { s with rk := s.rk.set i k, rkv := s.rkv ||| (1#9 <<< i.val) }

/-- Entries below `n` hold the schedule of the master key and are valid, the others are invalid and unspecified
(R80), log 6. -/
def loadSchedule (n : Nat) (key : MasterKey) (s : State) : State :=
  { s with
    rk := Vector.ofFn fun j : Fin 9 =>
      if j.val < n then scheduleKey key j.val else Config.freeRoundKey s.draws j.val
    rkv := validBelow n }

/-- No round key is valid any more (R80 on an error, R108). -/
def invalidateKeys (s : State) : State := { s with rkv := 0 }

/-- A word that decodes to ILLEGAL: the command completes with `ILLEGAL_CMD` and has no other effect (R55, R56). -/
def illegalCommand (s : State) : Answer := raise .illegalCmd s

/-- One rising edge has sampled the ports: the host's next sample comes up. -/
def State.tick (s : State) : State := { s with inputs := s.inputs.tail }

/-- An edge with `rst = 1` (R108, R110): every register takes its reset value; those without one become unspecified,
log 6, log 7. -/
def resetEdge (s : State) : State :=
  { scrambleLoop s with
    busy := false
    done := false
    err := 0
    rk := Vector.ofFn fun j : Fin 9 => Config.freeRoundKey s.draws j.val
    rkv := 0
    result := 0
    cmd := Config.freeCmd s.draws
    wait := 0 }

/-- Acceptance (R39): `CMD <- cmd`, `BUSY <- 1`, `DONE <- 0`, `ERR <- 0`; the command will complete `LAT(cmd)` edges
later (R41). -/
def accept (w : Word) (s : State) : State :=
  { scrambleLoop s with
    busy := true, done := false, err := 0, cmd := w, wait := Config.latency w s.draws }

/-- A rising edge inside a command, before its completing edge (R41, R43): nothing architectural changes. -/
def busyEdge (s : State) : State := { scrambleLoop s with wait := s.wait - 1 }

end Sys2Proof.Machine
end

