-- ==== Sys2Proof/Machine/Operands.lean ====
section
/-! DEFINITION. The operand forms that reach the round-key file: a key index (30_encoding.md R53, R60) and a round count,
with the errors of 60_exceptions.md R95 in the order of R97. Operands that come from `D` are fields of the instruction. -/

namespace Sys2Proof.Machine

/-- A key index in range, or `INDEX_RANGE` (R60, R94). -/
def keyIndex (idx : Index) : Except Completion (Fin 9) :=
  if h : idx.toNat < Config.nMax then .ok ⟨idx.toNat, h⟩ else .error .indexRange

/-- The round key an index names: `INDEX_RANGE` when `i > 8`, then `KEY_INVALID` when `RKV[i] = 0` (R74, R75, R82). -/
def keyOperand (idx : Index) (s : State) : Except Completion RoundKey :=
  match keyIndex idx with
  | .error e => .error e
  | .ok i => if keyValid s i.val then .ok s.rk[i] else .error .keyInvalid

/-- The round keys of `n` rounds, the first round's first: `ROUNDS_RANGE` when `n > 9`, then `KEY_INVALID` unless
`KeysValid(n)` (R88, R89). -/
def roundKeys (n : Index) (s : State) : Except Completion (List RoundKey) :=
  if Config.nMax < n.toNat then .error .roundsRange
  else if keysValid s n.toNat then .ok (s.rk.toList.take n.toNat)
  else .error .keyInvalid

/-- A command that gives a value from its operand, or raises the error of reading it. -/
def returnWith {α : Type} {w : Nat} (operand : Except Completion α) (f : α → BitVec w) (s : State) : Answer :=
  match operand with
  | .error e => raise e s
  | .ok a => returnValue (f a) s

end Sys2Proof.Machine
end

