-- ==== Sys2Proof/Machine/Cipher.lean ====
section
/-! DEFINITION. The driver commands (42_encrypt_decrypt.md section 2). -/

namespace Sys2Proof.Machine

/-- `ENCRYPT n, block12` (R88). -/
def execEncrypt (n : Index) (plain : Block) (s : State) : Answer := returnWith (roundKeys n s) (enc plain) s

/-- `DECRYPT n, block12` (R89). -/
def execDecrypt (n : Index) (cipher : Block) (s : State) : Answer := returnWith (roundKeys n s) (dec cipher) s

end Sys2Proof.Machine
end

