-- ==== Sys2Proof/Machine/Control.lean ====
section
/-! DEFINITION. The control command (43_control.md). -/

namespace Sys2Proof.Machine

/-- `NOP` (R90): complete. -/
def execNop (s : State) : Answer := .next (complete .ok s)

end Sys2Proof.Machine
end

