-- ==== Sys2Proof/Machine/Diagnostic.lean ====
section
/-! DEFINITION. The diagnostic commands (40_round_datapath.md section 2). -/

namespace Sys2Proof.Machine

/-- `EXPAND half6` (R72). -/
def execExpand (half : HalfBlock) (s : State) : Answer := returnValue (expand half) s

/-- `SUBST byte8` (R73). -/
def execSubst (byte : BitVec 8) (s : State) : Answer := returnValue (sbox byte) s

/-- `ROUNDF idx, half6` (R74). -/
def execRoundf (idx : Index) (half : HalfBlock) (s : State) : Answer :=
  returnWith (keyOperand idx s) (feistel half) s

/-- `ROUND idx, block12` (R75). -/
def execRound (idx : Index) (block : Block) (s : State) : Answer :=
  returnWith (keyOperand idx s) (feistelRound block) s

/-- `FPERM block12` (R76). -/
def execFperm (block : Block) (s : State) : Answer := returnValue (finalPerm block) s

end Sys2Proof.Machine
end

