-- ==== Sys2Proof/Machine/RoundKeys.lean ====
section
/-! DEFINITION. The round-key commands (41_key_schedule.md section 2). -/

namespace Sys2Proof.Machine

/-- `KEYGEN n, key9` (R80): a count above 9 invalidates every key and raises `ROUNDS_RANGE`. -/
def execKeygen (n : Index) (key : MasterKey) (s : State) : Answer :=
  if Config.nMax < n.toNat then raise .roundsRange (invalidateKeys s)
  else .next (complete .ok (loadSchedule n.toNat key s))

/-- `WRKEY idx, key8` (R81). -/
def execWrkey (idx : Index) (key : RoundKey) (s : State) : Answer :=
  match keyIndex idx with
  | .error e => raise e s
  | .ok i => .next (complete .ok (writeKey i key s))

/-- `RDKEY idx` (R82). -/
def execRdkey (idx : Index) (s : State) : Answer := returnWith (keyOperand idx s) id s

end Sys2Proof.Machine
end

