-- ==== Sys2Proof/Machine/Dispatch.lean ====
section
/-! DEFINITION. One arm per command: what it does at its completing edge, as one transaction (00_scope.md R13). -/

namespace Sys2Proof.Machine

def exec (i : Instr) (s : State) : Host.Outcome State Fault Refusal :=
  match i with
  | .nop => Sys2Proof.Machine.execNop s
  | .keygen n key => Sys2Proof.Machine.execKeygen n key s
  | .encrypt n plain => Sys2Proof.Machine.execEncrypt n plain s
  | .decrypt n cipher => Sys2Proof.Machine.execDecrypt n cipher s
  | .wrkey idx key => Sys2Proof.Machine.execWrkey idx key s
  | .rdkey idx => Sys2Proof.Machine.execRdkey idx s
  | .expand half => Sys2Proof.Machine.execExpand half s
  | .subst byte => Sys2Proof.Machine.execSubst byte s
  | .roundf idx half => Sys2Proof.Machine.execRoundf idx half s
  | .round idx block => Sys2Proof.Machine.execRound idx block s
  | .fperm block => Sys2Proof.Machine.execFperm block s

end Sys2Proof.Machine
end

