-- ==== Sys2Proof/Machine/Edge.lean ====
section
/-! DEFINITION. One rising edge of `clk` (20_memory.md R39 to R44, 70_reset_and_hazards.md R108, R110), the word in flight
and how it is run. -/

namespace Sys2Proof.Machine

/-- The whole effect of a command word at its completing edge: the command's rule, or `ILLEGAL_CMD` (R57, R94). -/
def runWord (w : Word) (s : State) : Answer :=
  match decode w with
  | some i => exec i s
  | none => illegalCommand s

/-- A rising edge of an engine that is not being reset: the completing edge of the command in flight, an edge inside it,
an acceptance, or nothing (R39, R41, R44). The engine works from `CMD`, never from the `cmd` input (R27). -/
def runningEdge (p : PortSample) (s : State) : Answer :=
  if s.busy then
    if s.wait ≤ 1 then runWord s.cmd s else .next (busyEdge s)
  else if p.cmdValid then .next (accept p.cmd s)
  else .next s

/-- One rising edge: reset wins over everything (R108, R102). -/
def clockEdge (s : State) : Answer :=
  if s.pins.rst then .next (resetEdge s.tick) else runningEdge s.pins s.tick

/-- The next edge is not a reset edge. -/
def releaseReset : List PortSample → List PortSample
  | [] => []
  | p :: ps => { p with rst := false } :: ps

/-- The state in which `w` was accepted and its completing edge comes next (log 11). -/
def inFlight (w : Word) (s : State) : State :=
  { s with
    busy := true, done := false, err := 0, cmd := w, wait := 1, inputs := releaseReset s.inputs }

end Sys2Proof.Machine
end

