-- ==== Sys2Proof/Machine/Step.lean ====
section
/-! DEFINITION. One step is one rising edge of `clk` (log 3). -/

namespace Sys2Proof.Machine

/-- One rising edge of `clk`. -/
def step (s : State) : Host.Outcome State Fault Refusal := clockEdge s

/-- The command word `w` in flight, its completing edge next, so that the very next step runs it (log 11). A command is
one 32-bit word (R50): the bits above `nbits` are zero. -/
def State.withFetchWord (s : State) (nbits w : Nat) : State := inFlight (BitVec.ofNat 32 (w % 2 ^ nbits)) s

end Sys2Proof.Machine
end

