-- ==== Sys2Proof/Machine/Assembler.lean ====
section
/-! DEFINITION. The assembler (30_encoding.md R61 to R63): from the text of a program to the words the host presents.
What R61 leaves open of the text's form is in log 13. -/

namespace Sys2Proof.Machine

/-! ### Lines to words (R62, R63) -/

/-- The command of a mnemonic and operands that fit their fields (R62). -/
def buildInstr : Mnemonic → List Nat → Option Instr
  | .nop, [] => some .nop
  | .keygen, [n, key] => some (.keygen (BitVec.ofNat 4 n) (BitVec.ofNat 9 key))
  | .encrypt, [n, block] => some (.encrypt (BitVec.ofNat 4 n) (BitVec.ofNat 12 block))
  | .decrypt, [n, block] => some (.decrypt (BitVec.ofNat 4 n) (BitVec.ofNat 12 block))
  | .wrkey, [idx, key] => some (.wrkey (BitVec.ofNat 4 idx) (BitVec.ofNat 8 key))
  | .rdkey, [idx] => some (.rdkey (BitVec.ofNat 4 idx))
  | .expand, [half] => some (.expand (BitVec.ofNat 6 half))
  | .subst, [byte] => some (.subst (BitVec.ofNat 8 byte))
  | .roundf, [idx, half] => some (.roundf (BitVec.ofNat 4 idx) (BitVec.ofNat 6 half))
  | .round, [idx, block] => some (.round (BitVec.ofNat 4 idx) (BitVec.ofNat 12 block))
  | .fperm, [block] => some (.fperm (BitVec.ofNat 12 block))
  | _, _ => none

/-- The commands `WRKEY first, k0`, `WRKEY first+1, k1`, ... (R63). -/
def loadKeysFrom (first : Nat) : List RoundKey → List Instr
  | [] => []
  | k :: ks => .wrkey (BitVec.ofNat 4 first) k :: loadKeysFrom (first + 1) ks

/-- `LOADKEYS k0, ..., k(m-1)` (R63). -/
def loadKeys (keys : List RoundKey) : List Instr := loadKeysFrom 0 keys

/-- The words of one line; a line that is not well formed is refused, never truncated (R62). -/
def assembleLine (line : Source) : Option (List Word) :=
  if line.wellFormed then
    match line with
    | .command m operands => (buildInstr m operands).map fun i => [encode i]
    | .loadKeys keys => some ((loadKeys (keys.map (BitVec.ofNat 8))).map encode)
    | .word v => some [BitVec.ofNat 32 v]
  else none

/-- The words of a program, in the order of its lines. -/
def assemble : List Source → Option (List Word)
  | [] => some []
  | line :: rest =>
    match assembleLine line, assemble rest with
    | some ws, some more => some (ws ++ more)
    | _, _ => none

/-! ### Text to lines (R61) -/

/-- The pieces of a text between the separators. -/
def splitAtChar (sep : Char) : List Char → List (List Char)
  | [] => [[]]
  | c :: cs =>
    if c = sep then [] :: splitAtChar sep cs
    else
      match splitAtChar sep cs with
      | [] => [[c]]
      | piece :: pieces => (c :: piece) :: pieces

/-- A blank: space, tab or carriage return. -/
def isBlank (c : Char) : Bool := c == ' ' || c == '\t' || c == '\r'

/-- The text without the blanks around it. -/
def trim (cs : List Char) : List Char := (((cs.dropWhile isBlank).reverse).dropWhile isBlank).reverse

/-- The value of a digit, if it is one in the base. -/
def digitValue (base : Nat) (c : Char) : Option Nat :=
  let v :=
    if '0' ≤ c ∧ c ≤ '9' then c.toNat - '0'.toNat
    else if 'a' ≤ c ∧ c ≤ 'f' then c.toNat - 'a'.toNat + 10
    else if 'A' ≤ c ∧ c ≤ 'F' then c.toNat - 'A'.toNat + 10
    else base
  if v < base then some v else none

/-- Digits read on from a value. -/
def parseDigits (base acc : Nat) : List Char → Option Nat
  | [] => some acc
  | c :: cs =>
    match digitValue base c with
    | some d => parseDigits base (acc * base + d) cs
    | none => none

/-- One digit or more. -/
def parseNumeral (base : Nat) (cs : List Char) : Option Nat :=
  if cs.isEmpty then none else parseDigits base 0 cs

/-- An unsigned integer: decimal, `0x` hexadecimal or `0b` binary (R61). -/
def parseInteger : List Char → Option Nat
  | '0' :: 'x' :: digits => parseNumeral 16 digits
  | '0' :: 'b' :: digits => parseNumeral 2 digits
  | digits => parseNumeral 10 digits

/-- Every operand, or nothing. -/
def parseIntegers : List (List Char) → Option (List Nat)
  | [] => some []
  | cs :: rest =>
    match parseInteger (trim cs), parseIntegers rest with
    | some v, some vs => some (v :: vs)
    | _, _ => none

/-- The operands after a mnemonic, separated by commas (R61). -/
def parseOperands (cs : List Char) : Option (List Nat) :=
  if (trim cs).isEmpty then some [] else parseIntegers (splitAtChar ',' cs)

/-- The mnemonics of R52, the pseudo-instruction of R63 and the directive of R61, each with its operands. -/
def parseHead (head : List Char) (operands : List Nat) : Option Source :=
  if head = "NOP".toList then some (.command .nop operands)
  else if head = "KEYGEN".toList then some (.command .keygen operands)
  else if head = "ENCRYPT".toList then some (.command .encrypt operands)
  else if head = "DECRYPT".toList then some (.command .decrypt operands)
  else if head = "WRKEY".toList then some (.command .wrkey operands)
  else if head = "RDKEY".toList then some (.command .rdkey operands)
  else if head = "EXPAND".toList then some (.command .expand operands)
  else if head = "SUBST".toList then some (.command .subst operands)
  else if head = "ROUNDF".toList then some (.command .roundf operands)
  else if head = "ROUND".toList then some (.command .round operands)
  else if head = "FPERM".toList then some (.command .fperm operands)
  else if head = "LOADKEYS".toList then some (.loadKeys operands)
  else if head = ".word".toList then
    match operands with
    | [v] => some (.word v)
    | _ => none
  else none

/-- A name, as a label is (R61): a letter or `_`, then letters, digits and `_` (log 13). -/
def isName : List Char → Bool
  | [] => false
  | c :: cs => (c.isAlpha || c == '_') && cs.all fun d => d.isAlphanum || d == '_'

/-- The line without its comment: `;` starts one that runs to the end (R61). -/
def dropComment (line : List Char) : List Char := line.takeWhile (· != ';')

/-- The line without its label, which has no meaning to the engine (R61); `none` when what stands before the `:` is no
name. -/
def dropLabel (line : List Char) : Option (List Char) :=
  match splitAtChar ':' line with
  | [_] => some line
  | [label, rest] => if isName (trim label) then some rest else none
  | _ => none

/-- One line of text: no command on it, one, or not a line of the assembler. -/
def parseLine (line : List Char) : Option (List Source) :=
  match dropLabel (dropComment line) with
  | none => none
  | some body =>
    let text := trim body
    if text.isEmpty then some []
    else
      match parseOperands (text.dropWhile (!isBlank ·)) with
      | none => none
      | some operands => (parseHead (text.takeWhile (!isBlank ·)) operands).map fun l => [l]

/-- Every line of a program. -/
def parseLines : List (List Char) → Option (List Source)
  | [] => some []
  | line :: rest =>
    match parseLine line, parseLines rest with
    | some ls, some more => some (ls ++ more)
    | _, _ => none

/-- The words of a program's text, or a refusal (R61 to R63). -/
def assembleText (text : String) : Option (List Word) :=
  match parseLines (splitAtChar '\n' text.toList) with
  | some lines => assemble lines
  | none => none

end Sys2Proof.Machine
end

