-- ==== Sys2Proof/Machine/Reference.lean ====
section
/-! DEFINITION. The reference engine (70_reset_and_hazards.md R119, R120): one round or one round key a cycle, in the
hidden registers `RC` and `ST` (10_state.md R28, R29). It is informative: one implementation among those R118 allows,
written beside the model so that its conformance can be stated. Log 12. -/

namespace Sys2Proof.Machine

/-- The reference latency of a word in the state that accepts it (R119). -/
def refLatency (w : Word) (s : State) : Nat :=
  match decode w with
  | some (.encrypt n _) | some (.decrypt n _) =>
    match roundKeys n s with
    | .ok _ => n.toNat + 1
    | .error _ => 1
  | some (.keygen n _) => if Config.nMax < n.toNat then 1 else max n.toNat 1
  | _ => 1

/-- The loop registers at the accepting edge (R120): `ST` holds the block, `RC` the first round's index. -/
def refLoopStart (w : Word) (s : State) : State :=
  match decode w with
  | some (.encrypt _ plain) => { s with st := plain, rc := 0 }
  | some (.decrypt n cipher) => { s with st := cipher, rc := n - 1 }
  | some (.keygen _ _) => { s with rc := 0 }
  | _ => s

/-- The accepting edge (R39, R120). -/
def refAccept (w : Word) (s : State) : State :=
  refLoopStart w { s with busy := true, done := false, err := 0, cmd := w, draws := s.draws + 1 }

/-- One round (R120): `ST <- FeistelRound(ST, RK[RC])`, and `RC` moves on. -/
def refRound (next : BitVec 4) (s : State) : State :=
  { s with
    st := feistelRound s.st (s.rk.toList.getD s.rc.toNat 0), rc := next, draws := s.draws + 1 }

/-- One round key (R120): `RK[RC] <- KeySched(K, RC)`, and `RC` moves on. -/
def refWriteKey (key : MasterKey) (s : State) : State :=
  { s with
    rk := s.rk.setIfInBounds s.rc.toNat (scheduleKey key s.rc.toNat)
    rc := s.rc + 1
    draws := s.draws + 1 }

/-- The driver loop at one edge: a round while `RC` has not reached `last`, then the final permutation and completion
(R120). The checks read state the loop does not write, so making them at each edge is making them in the first. -/
def refDriverEdge (n last next : BitVec 4) (s : State) : Answer :=
  match roundKeys n s with
  | .error e => raise e s
  | .ok _ => if s.rc = last then returnValue (finalPerm s.st) s else .next (refRound next s)

/-- The key schedule's loop at one edge: the edge that writes the last key completes, and so does the first edge of a
count of 0 (R120). -/
def refKeygenEdge (n : Index) (key : MasterKey) (s : State) : Answer :=
  if Config.nMax < n.toNat then raise .roundsRange (invalidateKeys s)
  else if n = 0 then .next (complete .ok (invalidateKeys s))
  else if s.rc + 1 = n then .next (complete .ok { refWriteKey key s with rkv := validBelow n.toNat })
  else .next (refWriteKey key s)

/-- An edge at which a command is in flight. `DECRYPT` counts `RC` down to 0 and ends when it has passed it, at 15. -/
def refBusyEdge (s : State) : Answer :=
  match decode s.cmd with
  | none => illegalCommand s
  | some (.encrypt n _) => refDriverEdge n n (s.rc + 1) s
  | some (.decrypt n _) => refDriverEdge n 15 (s.rc - 1) s
  | some (.keygen n key) => refKeygenEdge n key s
  | some i => exec i s

/-- One rising edge of the reference engine. -/
def refStep (s : State) : Answer :=
  if s.pins.rst then .next (resetEdge s.tick)
  else if s.busy then refBusyEdge s.tick
  else if s.pins.cmdValid then .next (refAccept s.pins.cmd s.tick)
  else .next s.tick

end Sys2Proof.Machine
end

