-- ==== Sys2Proof/Safety.lean ====
section
/-! DEFINITION. The terms claims are stated in: what a host may rely on, the invariant every edge keeps, how a command
ends, and the serial meaning of a sequence of words (20_memory.md R42, R45). -/

namespace Sys2Proof.Machine

/-! ### What a host may rely on -/

/-- What can be observed of an engine: the outputs of an idle engine and the round keys that a command could read, the
valid ones (R23, R33: the others are unspecified and unobservable). -/
structure Visible where
  busy : Bool
  done : Bool
  err : BitVec 3
  rkv : BitVec 9
  result : Block
  keys : Vector (Option RoundKey) 9
deriving DecidableEq, Repr

/-- The observable part of a state. -/
def State.visible (s : State) : Visible where
  busy := s.busy
  done := s.done
  err := s.err
  rkv := s.rkv
  result := s.result
  keys := Vector.ofFn fun j : Fin 9 => if keyValid s j.val then some s.rk[j] else none

/-- Two states that no host can tell apart, whatever it drives and however long it watches: they differ at most in
invalid round keys, in the hidden loop registers, and, while idle, in `CMD` and `wait`. -/
def State.looksLike (s t : State) : Prop :=
  s.visible = t.visible ∧ s.inputs = t.inputs ∧ s.draws = t.draws ∧
    (s.busy = true → s.cmd = t.cmd ∧ s.wait = t.wait)

/-- The result of the last command may be read: it is known that it completed, without an error (R113, R117). -/
def State.resultKnown (s : State) : Prop := s.busy = false ∧ s.done = true ∧ s.err = 0

/-! ### The invariant -/

/-- What holds of every state the engine reaches: only codes of R94 in `ERR`; `DONE = 0` and `ERR = 0` while busy (R21);
an error code only with `DONE = 1` (R19, R20); a command in flight has between 1 and `LAT_MAX` edges left (R118), an
idle engine none. -/
def State.Inv (s : State) : Prop :=
  s.err.toNat ≤ 4 ∧
  (s.busy = true → s.done = false ∧ s.err = 0) ∧
  (s.err ≠ 0 → s.done = true) ∧
  (s.busy = true → 1 ≤ s.wait ∧ s.wait ≤ Config.latMax) ∧
  (s.busy = false → s.wait = 0)

/-! ### How a command ends -/

/-- The command has completed with the code (R41): `BUSY = 0`, `DONE = 1`, `ERR` the code, no edge left to wait for. The
host's side of the ports is as it was. -/
def EndsWith (c : Completion) (s t : State) : Prop :=
  t.busy = false ∧ t.done = true ∧ t.err = c.code ∧ t.wait = 0 ∧ t.inputs = s.inputs

/-- The round-key file is unchanged, data and valid bits. -/
def KeepsKeys (s t : State) : Prop := t.rk = s.rk ∧ t.rkv = s.rkv

/-- `RESULT` is unchanged. -/
def KeepsResult (s t : State) : Prop := t.result = s.result

/-- The command completed with an error and had no other effect (R96). -/
def OnlyRaises (c : Completion) (s t : State) : Prop := EndsWith c s t ∧ KeepsKeys s t ∧ KeepsResult s t

/-- The command completed without an error, wrote `RESULT` and nothing else. -/
def OnlyReturns (v : Block) (s t : State) : Prop := EndsWith .ok s t ∧ KeepsKeys s t ∧ t.result = v

/-! ### Words -/

/-- The words that R55 and R56 make illegal: a nonzero `Z`, a one in a must-be-zero bit of the opcode, or a reserved
opcode. Written from those rules, not from the decoder. -/
def illegalWord (w : Word) : Bool :=
  w.extractLsb' 12 12 != 0 ||
    match (w.extractLsb' 28 4).toNat with
    | 0x0 => w.extractLsb' 24 4 != 0 || w.extractLsb' 0 12 != 0
    | 0x1 => w.extractLsb' 9 3 != 0
    | 0x2 => false
    | 0x3 => false
    | 0x4 => w.extractLsb' 8 4 != 0
    | 0x5 => w.extractLsb' 0 12 != 0
    | 0x6 => w.extractLsb' 24 4 != 0 || w.extractLsb' 6 6 != 0
    | 0x7 => w.extractLsb' 24 4 != 0 || w.extractLsb' 8 4 != 0
    | 0x8 => w.extractLsb' 6 6 != 0
    | 0x9 => false
    | 0xA => w.extractLsb' 24 4 != 0
    | _ => true

/-! ### Runs -/

/-- `k` edges of a machine, stopping at the first that answers no next state. -/
def runEdges (edge : State → Answer) : Nat → State → Answer
  | 0, s => .next s
  | k + 1, s =>
    match edge s with
    | .next t => runEdges edge k t
    | .fault e => .fault e
    | .refused e => .refused e

/-- `k` rising edges of the engine; the same as `Sys2Proof.core.run k` (`edges_eq_run`). -/
def edges (k : Nat) (s : State) : Answer := runEdges step k s

/-- `k` rising edges of the reference engine (R120). -/
def refEdges (k : Nat) (s : State) : Answer := runEdges refStep k s

/-- No reset at any of the next `k` edges. -/
def NoResetFor (k : Nat) (s : State) : Prop := ∀ p ∈ s.inputs.take k, p.rst = false

/-- The word the next edge accepts, if it accepts one (R39). -/
def acceptedNow (s : State) : List Word := if cmdReady s && s.pins.cmdValid then [s.pins.cmd] else []

/-- The words accepted at the next `k` edges, in order. -/
def acceptedWords : Nat → State → List Word
  | 0, _ => []
  | k + 1, s =>
    acceptedNow s ++
      match step s with
      | .next t => acceptedWords k t
      | .fault _ => []
      | .refused _ => []

/-- The rules of the words applied one after another, each whole before the next (R42, R45). -/
def serialRun : List Word → State → Answer
  | [], s => .next s
  | w :: ws, s =>
    match runWord w s with
    | .next t => serialRun ws t
    | .fault e => .fault e
    | .refused e => .refused e

end Sys2Proof.Machine
end

