-- ==== Sys2Proof/Certificates/Slice0/Obligations.lean ====
section
/-! DEFINITION. The statements about the engine. Each docstring says which rule of spec/ it formalises. In every statement
about the end of a command, the hidden registers CMD, RC and ST and the model's counter of draws are left free. -/

open Sys2Proof Sys2Proof.Machine

/-- The reset state holds the value the spec gives each register for reset. Rests on spec/10_state.md section 8 (R33).
That `cmd_ready` is 1 there rests on the silent host of log 4. -/
def Obligations.ResetStateHasTheSpecValues : Prop :=
  State.reset.busy = false ∧ State.reset.done = false ∧ State.reset.err = 0 ∧ State.reset.rkv = 0 ∧
    State.reset.result = 0 ∧ statusOutput State.reset = 0 ∧ resultOutput State.reset = 0 ∧
    cmdReady State.reset = true

/-- The invariant holds of the reset state. Rests on spec/10_state.md section 8 (R33); spec/10_state.md section 2 (R18
to R21). The reset value of `wait` is the model's choice, log 5. -/
def Obligations.ResetStateSatisfiesInv : Prop :=
  State.reset.Inv

/-- Every rising edge keeps the invariant, from every state that meets it. Rests on spec/10_state.md section 2 (R18 to
R21); spec/20_memory.md section 2 (R41, R43); spec/60_exceptions.md section 1 (R94); spec/70_reset_and_hazards.md
section 4 (R118). The field `wait` is the model's; its bound is that of R118, log 2. -/
def Obligations.EveryEdgeKeepsInv : Prop :=
  ∀ s t : State, s.Inv → step s = .next t → t.Inv

/-- No edge stops the engine: every step answers a next state. Rests on spec/60_exceptions.md section 3 (R99). -/
def Obligations.EveryEdgeHasANextState : Prop :=
  (∀ s : State, ∃ t, step s = .next t) ∧
    ∀ (w : Word) (s : State), ∃ t, runWord w s = .next t ∧ t.busy = false ∧ t.done = true

/-- Words written out from the encoding decode to the commands they stand for. Rests on spec/95_test_vectors.md
section 2.8; spec/30_encoding.md section 2 (R52). -/
def Obligations.WrittenWordsDecode : Prop :=
  decode 0x00000000 = some .nop ∧ decode 0x140000CA = some (.keygen 4 0x0CA) ∧
    decode 0x2F000FFF = some (.encrypt 15 0xFFF) ∧ decode 0x3400058C = some (.decrypt 4 0x58C) ∧
    decode 0x480000FF = some (.wrkey 8 0xFF) ∧ decode 0x52000000 = some (.rdkey 2) ∧
    decode 0x60000026 = some (.expand 0x26) ∧ decode 0x700000CF = some (.subst 0xCF) ∧
    decode 0x80000026 = some (.roundf 0 0x26) ∧ decode 0x9F000FFF = some (.round 15 0xFFF) ∧
    decode 0xA0000FFF = some (.fperm 0xFFF) ∧
    decode 0x00000001 = none ∧ decode 0x14000200 = none ∧ decode 0x20800000 = none ∧ decode 0xB0000000 = none

/-- Decoding the word of any well-formed command gives that command back. Rests on spec/30_encoding.md sections 1 to 4
(R51, R52, R54, R57); spec/30_encoding.md section 5 (R62). -/
def Obligations.DecodeOfEncodeIsTheCommand : Prop :=
  ∀ i : Instr, i.wellFormed = true → decode (encode i) = some i

/-- A word is a command of mnemonic M exactly when it matches the row of M, and no word matches two rows. Formalises
R57. -/
def Obligations.DecodeAgreesWithTheOpcodeTable : Prop :=
  (∀ w : Word, decode w = none ↔ illegalWord w = true) ∧
    (∀ (w : Word) (i : Instr), decode w = some i → encode i = w) ∧
    (∀ (w : Word) (m : Mnemonic),
      (∃ i, decode w = some i ∧ i.mnemonic = m) ↔ ∃ r ∈ opcodeTable, r.mnemonic = m ∧ r.covers w) ∧
    (∀ (w : Word) (r q : OpcodeRow), r ∈ opcodeTable → q ∈ opcodeTable → r.covers w → q.covers w → r = q) ∧
    ∀ w : Word, (∀ r ∈ opcodeTable, ¬ r.covers w) → decode w = none

/-- The only word that does nothing is 0x00000000; every other word with OP = 0 is illegal. Formalises R58. -/
def Obligations.TheOneNopWord : Prop :=
  (∀ w : Word, decode w = some .nop ↔ w = 0) ∧ (∀ w : Word, opField w = 0 → w ≠ 0 → decode w = none) ∧
    (∀ s : State, ∃ t, runWord 0 s = .next t ∧ EndsWith .ok s t ∧ KeepsKeys s t ∧ KeepsResult s t) ∧
    ∀ w : Word, w ≠ 0 →
      ∃ s t u, s.Inv ∧ runWord w s = .next t ∧ runWord 0 s = .next u ∧ t.visible ≠ u.visible

/-- A reserved opcode raises ILLEGAL_CMD and has no other effect, whatever the other bits. Formalises R56. -/
def Obligations.ReservedOpcodesRaiseIllegal : Prop :=
  ∀ (w : Word) (s : State), 0xB ≤ (opField w).toNat → ∃ t, runWord w s = .next t ∧ OnlyRaises .illegalCmd s t

/-- A one in a must-be-zero bit raises ILLEGAL_CMD and has no other effect. Formalises R55. -/
def Obligations.MustBeZeroBitsRaiseIllegal : Prop :=
  (∀ (w : Word) (s : State),
    (zField w ≠ 0 ∨
      (opField w = 0x0 ∧ (w.extractLsb' 24 4 ≠ 0 ∨ w.extractLsb' 0 12 ≠ 0)) ∨
      (opField w = 0x1 ∧ w.extractLsb' 9 3 ≠ 0) ∨
      (opField w = 0x4 ∧ w.extractLsb' 8 4 ≠ 0) ∨
      (opField w = 0x5 ∧ w.extractLsb' 0 12 ≠ 0) ∨
      (opField w = 0x6 ∧ (w.extractLsb' 24 4 ≠ 0 ∨ w.extractLsb' 6 6 ≠ 0)) ∨
      (opField w = 0x7 ∧ (w.extractLsb' 24 4 ≠ 0 ∨ w.extractLsb' 8 4 ≠ 0)) ∨
      (opField w = 0x8 ∧ w.extractLsb' 6 6 ≠ 0) ∨
      (opField w = 0xA ∧ w.extractLsb' 24 4 ≠ 0)) →
    ∃ t, runWord w s = .next t ∧ OnlyRaises .illegalCmd s t) ∧
    ∀ w : Word, zField w = 0 → (opField w = 0x2 ∨ opField w = 0x3 ∨ opField w = 0x9) → decode w ≠ none

/-- Each syntax line assembles to the word of the table, and a literal wider than its field is refused. Formalises
R62. -/
def Obligations.EncoderWritesTheSyntaxTable : Prop :=
  (encode .nop = 0 ∧
    (∀ n key, encode (.keygen n key) = (1#32 <<< 28) ||| (n.setWidth 32 <<< 24) ||| key.setWidth 32) ∧
    (∀ n b, encode (.encrypt n b) = (2#32 <<< 28) ||| (n.setWidth 32 <<< 24) ||| b.setWidth 32) ∧
    (∀ n b, encode (.decrypt n b) = (3#32 <<< 28) ||| (n.setWidth 32 <<< 24) ||| b.setWidth 32) ∧
    (∀ n k, encode (.wrkey n k) = (4#32 <<< 28) ||| (n.setWidth 32 <<< 24) ||| k.setWidth 32) ∧
    (∀ n, encode (.rdkey n) = (5#32 <<< 28) ||| (n.setWidth 32 <<< 24)) ∧
    (∀ h, encode (.expand h) = (6#32 <<< 28) ||| h.setWidth 32) ∧
    (∀ y, encode (.subst y) = (7#32 <<< 28) ||| y.setWidth 32) ∧
    (∀ n h, encode (.roundf n h) = (8#32 <<< 28) ||| (n.setWidth 32 <<< 24) ||| h.setWidth 32) ∧
    (∀ n b, encode (.round n b) = (9#32 <<< 28) ||| (n.setWidth 32 <<< 24) ||| b.setWidth 32) ∧
    ∀ b, encode (.fperm b) = (0xA#32 <<< 28) ||| b.setWidth 32) ∧
    (∀ i : Instr, assembleLine (.command i.mnemonic i.operands) = some [encode i]) ∧
    (∀ (m : Mnemonic) (vs : List Nat), vs.length ≠ m.operandWidths.length → assembleLine (.command m vs) = none) ∧
    (∀ (m : Mnemonic) (vs : List Nat) (k : Nat) (hv : k < vs.length) (hw : k < m.operandWidths.length),
      2 ^ m.operandWidths[k] ≤ vs[k] → assembleLine (.command m vs) = none) ∧
    assembleLine (.command .keygen [4, 0b011001010]) = some [0x140000CA] ∧
    assembleLine (.command .encrypt [4, 0x726]) = some [0x24000726]

/-- LOADKEYS expands to the WRKEY commands in order, and running them loads the sequence and nothing else. Formalises
R63. -/
def Obligations.LoadKeysWritesTheSequence : Prop :=
  (∀ keys : List RoundKey, (1 ≤ keys.length ∧ keys.length ≤ 9) →
    assembleLine (.loadKeys (keys.map BitVec.toNat)) =
      some (keys.zipIdx.map fun p => encode (.wrkey (BitVec.ofNat 4 p.2) p.1))) ∧
    (∀ vs : List Nat, (vs.length = 0 ∨ 9 < vs.length) → assembleLine (.loadKeys vs) = none) ∧
    ∀ (keys : List RoundKey) (s : State), (1 ≤ keys.length ∧ keys.length ≤ 9) →
      ∃ t, serialRun ((loadKeys keys).map encode) s = .next t ∧
        (∀ (j : Fin 9) (h : j.val < keys.length), t.rk[j] = keys[j.val] ∧ keyValid t j.val = true) ∧
        (∀ j : Fin 9, keys.length ≤ j.val → t.rk[j] = s.rk[j] ∧ keyValid t j.val = keyValid s j.val) ∧
        t.result = s.result ∧ t.err = 0

/-- The bit expander is the bit map of the rule, by both of its formulas, injective and not onto. Formalises R64. -/
def Obligations.ExpandIsTheInjectiveBitMap : Prop :=
  (∀ h : HalfBlock, expand h =
    BitVec.ofBool (h.getLsbD 5) ++ BitVec.ofBool (h.getLsbD 4) ++ BitVec.ofBool (h.getLsbD 2) ++
      BitVec.ofBool (h.getLsbD 3) ++ BitVec.ofBool (h.getLsbD 2) ++ BitVec.ofBool (h.getLsbD 3) ++
      BitVec.ofBool (h.getLsbD 1) ++ BitVec.ofBool (h.getLsbD 0)) ∧
    (∀ h : HalfBlock, expand h =
      ((h.setWidth 8 &&& 0x30) <<< 2) ||| ((h.setWidth 8 &&& 0x04) <<< 3) ||| ((h.setWidth 8 &&& 0x08) <<< 1) |||
        ((h.setWidth 8 &&& 0x04) <<< 1) ||| ((h.setWidth 8 &&& 0x08) >>> 1) ||| (h.setWidth 8 &&& 0x03)) ∧
    (∀ h g : HalfBlock, expand h = expand g → h = g) ∧ (∃ y : BitVec 8, ∀ h : HalfBlock, expand h ≠ y) ∧
    expand 0b100110 = 0b10101010

/-- The round driver splits, mixes and swaps; it is a bijection for each key with the given inverse, but no
involution. Formalises R68. -/
def Obligations.FeistelRoundIsABijection : Prop :=
  (∀ (s : Block) (k : RoundKey),
    (feistelRound s k).extractLsb' 6 6 = s.extractLsb' 0 6 ∧
      (feistelRound s k).extractLsb' 0 6 = s.extractLsb' 6 6 ^^^ feistel (s.extractLsb' 0 6) k) ∧
    (∀ (s : Block) (k : RoundKey),
      ((feistelRound s k).extractLsb' 0 6 ^^^ feistel ((feistelRound s k).extractLsb' 6 6) k) ++
        (feistelRound s k).extractLsb' 6 6 = s) ∧
    (∀ (b : Block) (k : RoundKey),
      feistelRound ((b.extractLsb' 0 6 ^^^ feistel (b.extractLsb' 6 6) k) ++ b.extractLsb' 6 6) k = b) ∧
    (∃ (s : Block) (k : RoundKey), feistelRound (feistelRound s k) k ≠ s) ∧
    feistelRound 0x726 0x65 = 0x998

/-- Enc threads the block through the rounds in key order, Dec in reverse order, and both end in the final
permutation. Formalises R84, R85. -/
def Obligations.DriversThreadTheRounds : Prop :=
  (∀ p : Block, enc p [] = finalPerm p) ∧ (∀ c : Block, dec c [] = finalPerm c) ∧
    (∀ (p : Block) (k : RoundKey) (ks : List RoundKey), enc p (k :: ks) = enc (feistelRound p k) ks) ∧
    ∀ (c : Block) (k : RoundKey) (ks : List RoundKey), dec c (ks ++ [k]) = dec (feistelRound c k) ks

/-- Round key i is eight master-key bits read cyclically from K[8-i], except bit 6 of key 8 under the unsigned
reading. Formalises R79. -/
def Obligations.KeyScheduleReadsTheKeyCyclically : Prop :=
  ∀ (signedMask : Bool) (key : MasterKey) (i : Fin 9) (j : Fin 8),
    (keySched signedMask key i.val).getLsbD j.val =
      if i = 8 ∧ j = 6 ∧ signedMask = false then false else key.getLsbD ((10 + j.val - i.val) % 9)

/-- The two readings of the left mask differ only in bit 6 of round key 8, which is K[8] or 0. Formalises R78. -/
def Obligations.SignednessShowsOnlyInKeyEightBitSix : Prop :=
  (∀ i : Fin 9, leftMask false i.val = 0xFC00#16 >>> i.val ∧
      leftMask true i.val = 0xFFFF#16 <<< (10 - i.val) ∧
      (i.val ≤ 7 → leftMask false i.val &&& 0x1FF = 0x1FF &&& (0xFFFF#16 <<< (10 - i.val)) ∧
        leftMask true i.val &&& 0x1FF = 0x1FF &&& (0xFFFF#16 <<< (10 - i.val)))) ∧
    (∀ key : MasterKey, (keySched true key 8).getLsbD 6 = key.getLsbD 8 ∧
      (keySched false key 8).getLsbD 6 = false) ∧
    ∀ (key : MasterKey) (i : Fin 9) (j : Fin 8), (¬ (i = 8 ∧ j = 6)) →
      (keySched true key i.val).getLsbD j.val = (keySched false key i.val).getLsbD j.val

/-- The final truncation of the key schedule drops no one bit. Rests on spec/41_key_schedule.md section 1 (R77). -/
def Obligations.KeyScheduleLosesNoBit : Prop :=
  (∀ (signedMask : Bool) (key : MasterKey) (i : Fin 9), i ≠ 0 →
    (keySched signedMask key i.val).toNat =
      (((key.setWidth 16 &&& leftMask signedMask i.val) >>> (10 - i.val)) |||
        ((key.setWidth 16 &&& (0x1FE#16 >>> i.val)) <<< (i.val - 1))).toNat) ∧
    ∀ (signedMask : Bool) (key : MasterKey),
      (keySched signedMask key 0).toNat = ((key.setWidth 16 &&& 0x1FE#16) >>> 1).toNat

/-- NOP completes with ERR = 0 and changes nothing else. Formalises R90. -/
def Obligations.NopCompletesAndDoesNothingElse : Prop :=
  (∀ s : State, ∃ t, exec .nop s = .next t ∧ EndsWith .ok s t ∧ KeepsKeys s t ∧ KeepsResult s t) ∧
    decode 0x00000000 = some .nop ∧
    (∀ (w : Word) (s : State), opField w = 0 → w ≠ 0 → ∃ t, runWord w s = .next t ∧ OnlyRaises .illegalCmd s t) ∧
    ∀ s : State, ∃ t u, runWord 0x1A000000 s = .next t ∧ t.err = 1 ∧ runWord 0x00000000 t = .next u ∧
      u.err = 0 ∧ u.done = true ∧ u.rkv = 0

/-- KEYGEN loads KeySched into the first n entries and invalidates the rest; a count above 9 leaves no key valid.
Formalises R80. -/
def Obligations.KeygenLoadsTheSchedule : Prop :=
  (∀ (n : Index) (key : MasterKey) (s : State), n.toNat ≤ 9 →
    ∃ t, exec (.keygen n key) s = .next t ∧ EndsWith .ok s t ∧ KeepsResult s t ∧
      (∀ j : Fin 9, j.val < n.toNat → t.rk[j] = keySched Config.ksSignedLeftMask key j.val) ∧
      ∀ j : Fin 9, keyValid t j.val = decide (j.val < n.toNat)) ∧
    (∀ (n : Index) (key : MasterKey) (s : State), 9 < n.toNat →
      ∃ t, exec (.keygen n key) s = .next t ∧ EndsWith .roundsRange s t ∧ KeepsResult s t ∧ t.rk = s.rk ∧
        t.rkv = 0) ∧
    (∀ (n : Index) (key : MasterKey), decode (0x1#4 ++ n ++ 0#15 ++ key) = some (.keygen n key)) ∧
    (∀ (w : Word) (s : State), opField w = 0x1 → (w.extractLsb' 9 3 ≠ 0 ∨ zField w ≠ 0) →
      ∃ t, runWord w s = .next t ∧ OnlyRaises .illegalCmd s t) ∧
    (∀ (b : Bool) (i : Fin 9), keySched b 0 i.val = 0) ∧
    (∀ (b : Bool) (i : Fin 8), keySched b 0x1FF i.val = 0xFF) ∧
    (keySched false 0x1FF 8 = 0xBF ∧ keySched true 0x1FF 8 = 0xFF) ∧
    ∀ s : State, ∃ t, runWord 0x140000CA s = .next t ∧ t.rk[0] = 0x65 ∧ t.rk[1] = 0xCA ∧ t.rk[2] = 0x94 ∧
      t.rk[3] = 0x29 ∧ t.rkv = 0b000001111

/-- WRKEY writes its entry and valid bit and nothing else; an index above 8 raises INDEX_RANGE. Formalises R81. -/
def Obligations.WrkeyWritesOneEntry : Prop :=
  (∀ (i : Fin 9) (k : RoundKey) (s : State),
    ∃ t, exec (.wrkey (BitVec.ofNat 4 i.val) k) s = .next t ∧ EndsWith .ok s t ∧ KeepsResult s t ∧
      t.rk[i] = k ∧ keyValid t i.val = true ∧
      ∀ j : Fin 9, j ≠ i → t.rk[j] = s.rk[j] ∧ keyValid t j.val = keyValid s j.val) ∧
    (∀ (idx : Index) (k : RoundKey) (s : State), 9 ≤ idx.toNat →
      ∃ t, exec (.wrkey idx k) s = .next t ∧ OnlyRaises .indexRange s t) ∧
    (∀ (idx : Index) (k : RoundKey), decode (0x4#4 ++ idx ++ 0#16 ++ k) = some (.wrkey idx k)) ∧
    (∀ (w : Word) (s : State), opField w = 0x4 → (w.extractLsb' 8 4 ≠ 0 ∨ zField w ≠ 0) →
      ∃ t, runWord w s = .next t ∧ OnlyRaises .illegalCmd s t) ∧
    ∀ s : State, ∃ t, runWord 0x40000000 s = .next t ∧ t.rk[0] = 0x00 ∧ keyValid t 0 = true

/-- RDKEY copies a valid round key into RESULT; otherwise it raises INDEX_RANGE or KEY_INVALID. Formalises R82. -/
def Obligations.RdkeyCopiesOneEntry : Prop :=
  (∀ (i : Fin 9) (s : State), keyValid s i.val = true →
    ∃ t, exec (.rdkey (BitVec.ofNat 4 i.val)) s = .next t ∧ OnlyReturns (s.rk[i].setWidth 12) s t ∧
      t.result.toNat ≤ 0x0FF) ∧
    (∀ (idx : Index) (s : State), 9 ≤ idx.toNat →
      ∃ t, exec (.rdkey idx) s = .next t ∧ OnlyRaises .indexRange s t) ∧
    (∀ (i : Fin 9) (s : State), keyValid s i.val = false →
      ∃ t, exec (.rdkey (BitVec.ofNat 4 i.val)) s = .next t ∧ OnlyRaises .keyInvalid s t) ∧
    (∀ idx : Index, decode (0x5#4 ++ idx ++ 0#24) = some (.rdkey idx)) ∧
    (∀ (w : Word) (s : State), opField w = 0x5 → (dField w ≠ 0 ∨ zField w ≠ 0) →
      ∃ t, runWord w s = .next t ∧ OnlyRaises .illegalCmd s t) ∧
    (∀ (n : Index) (key : MasterKey) (s : State) (i : Fin 9), n.toNat ≤ 9 → n.toNat ≤ i.val →
      ∃ t u, exec (.keygen n key) s = .next t ∧ exec (.rdkey (BitVec.ofNat 4 i.val)) t = .next u ∧
        OnlyRaises .keyInvalid t u) ∧
    ∀ s : State, ∃ t, serialRun [0x140000CA, 0x52000000] s = .next t ∧ t.result = 0x094

/-- EXPAND applies the bit expander alone. Formalises R72. -/
def Obligations.ExpandCommandReturnsTheExpansion : Prop :=
  (∀ (h : HalfBlock) (s : State),
    ∃ t, exec (.expand h) s = .next t ∧ t.result.toNat ≤ 0x0FF ∧
      OnlyReturns (0#4 ++ BitVec.ofBool (h.getLsbD 5) ++ BitVec.ofBool (h.getLsbD 4) ++ BitVec.ofBool (h.getLsbD 2) ++
        BitVec.ofBool (h.getLsbD 3) ++ BitVec.ofBool (h.getLsbD 2) ++ BitVec.ofBool (h.getLsbD 3) ++
        BitVec.ofBool (h.getLsbD 1) ++ BitVec.ofBool (h.getLsbD 0)) s t) ∧
    (∀ h : HalfBlock, decode (0x60#8 ++ 0#18 ++ h) = some (.expand h)) ∧
    (∀ (w : Word) (s : State), opField w = 0x6 → (nField w ≠ 0 ∨ w.extractLsb' 6 6 ≠ 0 ∨ zField w ≠ 0) →
      ∃ t, runWord w s = .next t ∧ OnlyRaises .illegalCmd s t) ∧
    ∀ s : State, (∃ t, exec (.expand 0) s = .next t ∧ t.result = 0x000) ∧
      (∃ t, exec (.expand 0x3F) s = .next t ∧ t.result = 0x0FF) ∧
      ∃ t, runWord 0x60000026 s = .next t ∧ t.result = 0x0AA

/-- SUBST looks the left nibble up in table 1 and the right nibble in table 2. Formalises R73. -/
def Obligations.SubstCommandLooksUpBothTables : Prop :=
  (∀ (y : BitVec 8) (s : State),
    ∃ t, exec (.subst y) s = .next t ∧ OnlyReturns t.result s t ∧ t.result.toNat ≤ 0x03F ∧
      t.result.toNat =
        [5, 2, 1, 6, 3, 4, 7, 0, 1, 4, 6, 2, 0, 7, 5, 3].getD (y.toNat / 16) 0 * 8 +
          [4, 0, 6, 5, 7, 1, 3, 2, 5, 3, 0, 7, 6, 2, 1, 4].getD (y.toNat % 16) 0) ∧
    (∀ y : BitVec 8, decode (0x70#8 ++ 0#16 ++ y) = some (.subst y)) ∧
    (∀ (w : Word) (s : State), opField w = 0x7 → (nField w ≠ 0 ∨ w.extractLsb' 8 4 ≠ 0 ∨ zField w ≠ 0) →
      ∃ t, runWord w s = .next t ∧ OnlyRaises .illegalCmd s t) ∧
    ∀ s : State, (∃ t, exec (.subst 0x00) s = .next t ∧ t.result = 0x02C) ∧
      (∃ t, exec (.subst 0xFF) s = .next t ∧ t.result = 0x01C) ∧
      (∃ t, exec (.subst 0x0F) s = .next t ∧ t.result = 0x02C) ∧
      ∃ t, runWord 0x700000CF s = .next t ∧ t.result = 0x004

/-- ROUNDF applies the round function to a half-block and one valid round key, or raises. Formalises R74. -/
def Obligations.RoundfCommandAppliesTheRoundFunction : Prop :=
  (∀ (i : Fin 9) (h : HalfBlock) (s : State), keyValid s i.val = true →
    ∃ t, exec (.roundf (BitVec.ofNat 4 i.val) h) s = .next t ∧ t.result.toNat ≤ 0x03F ∧
      OnlyReturns ((sbox (expand h ^^^ s.rk[i])).setWidth 12) s t) ∧
    (∀ (idx : Index) (h : HalfBlock) (s : State), 9 ≤ idx.toNat →
      ∃ t, exec (.roundf idx h) s = .next t ∧ OnlyRaises .indexRange s t) ∧
    (∀ (i : Fin 9) (h : HalfBlock) (s : State), keyValid s i.val = false →
      ∃ t, exec (.roundf (BitVec.ofNat 4 i.val) h) s = .next t ∧ OnlyRaises .keyInvalid s t) ∧
    (∀ (idx : Index) (h : HalfBlock), decode (0x8#4 ++ idx ++ 0#18 ++ h) = some (.roundf idx h)) ∧
    (∀ (w : Word) (s : State), opField w = 0x8 → (w.extractLsb' 6 6 ≠ 0 ∨ zField w ≠ 0) →
      ∃ t, runWord w s = .next t ∧ OnlyRaises .illegalCmd s t) ∧
    (∀ h : HalfBlock, feistel h 0 = sbox (expand h)) ∧ feistel 0x00 0x00 = 0x2C ∧ feistel 0x3F 0xFF = 0x2C ∧
    ∀ s : State, keyValid s 0 = true → s.rk[0] = 0x65 → ∃ t, runWord 0x80000026 s = .next t ∧ t.result = 0x004

/-- ROUND applies one Feistel round to a block with one valid round key, or raises. Formalises R75. -/
def Obligations.RoundCommandAppliesOneRound : Prop :=
  (∀ (i : Fin 9) (b : Block) (s : State), keyValid s i.val = true →
    ∃ t, exec (.round (BitVec.ofNat 4 i.val) b) s = .next t ∧
      t.result.extractLsb' 6 6 = b.extractLsb' 0 6 ∧
      OnlyReturns (b.extractLsb' 0 6 ++ (b.extractLsb' 6 6 ^^^ feistel (b.extractLsb' 0 6) s.rk[i])) s t) ∧
    (∀ (idx : Index) (b : Block) (s : State), 9 ≤ idx.toNat →
      ∃ t, exec (.round idx b) s = .next t ∧ OnlyRaises .indexRange s t) ∧
    (∀ (i : Fin 9) (b : Block) (s : State), keyValid s i.val = false →
      ∃ t, exec (.round (BitVec.ofNat 4 i.val) b) s = .next t ∧ OnlyRaises .keyInvalid s t) ∧
    (∀ (idx : Index) (b : Block), decode (0x9#4 ++ idx ++ 0#12 ++ b) = some (.round idx b)) ∧
    (∀ (w : Word) (s : State), opField w = 0x9 → zField w ≠ 0 →
      ∃ t, runWord w s = .next t ∧ OnlyRaises .illegalCmd s t) ∧
    feistelRound 0x000 0x00 = 0x02C ∧ feistelRound 0xFFF 0x00 = 0xFE3 ∧
    feistelRound 0x726 0x65 = 0x998 ∧ feistelRound 0x998 0x65 = 0x616 ∧
    ∀ s : State, keyValid s 0 = true → s.rk[0] = 0x65 → ∃ t, runWord 0x90000726 s = .next t ∧ t.result = 0x998

/-- FPERM swaps the halves of a block, and twice restores it. Formalises R76. -/
def Obligations.FpermCommandSwapsTheHalves : Prop :=
  (∀ (b : Block) (s : State), ∃ t, exec (.fperm b) s = .next t ∧
    OnlyReturns (b.extractLsb' 0 6 ++ b.extractLsb' 6 6) s t ∧
    (∃ u, exec (.fperm t.result) t = .next u ∧ u.result = b) ∧
    (b.extractLsb' 0 6 = b.extractLsb' 6 6 → t.result = b)) ∧
    (∀ b : Block, decode (0xA#4 ++ 0#16 ++ b) = some (.fperm b)) ∧
    (∀ (w : Word) (s : State), opField w = 0xA → (nField w ≠ 0 ∨ zField w ≠ 0) →
      ∃ t, runWord w s = .next t ∧ OnlyRaises .illegalCmd s t) ∧
    ∀ s : State, (∃ t, exec (.fperm 0x000) s = .next t ∧ t.result = 0x000) ∧
      (∃ t, exec (.fperm 0xFFF) s = .next t ∧ t.result = 0xFFF) ∧
      (∃ t, exec (.fperm 0x03F) s = .next t ∧ t.result = 0xFC0) ∧
      ∃ t, runWord 0xA0000123 s = .next t ∧ t.result = 0x8C4

/-- ENCRYPT runs n rounds with RK[0] to RK[n-1] and the final permutation, or raises. Formalises R88. -/
def Obligations.EncryptCommandRunsTheRounds : Prop :=
  (∀ (n : Index) (p : Block) (s : State), n.toNat ≤ 9 → (∀ i < n.toNat, keyValid s i = true) →
    ∃ (t : State) (st : Nat → Block), exec (.encrypt n p) s = .next t ∧ OnlyReturns (finalPerm (st n.toNat)) s t ∧
      st 0 = p ∧ ∀ i : Fin 9, i.val < n.toNat → st (i.val + 1) = feistelRound (st i.val) s.rk[i]) ∧
    (∀ (n : Index) (p : Block) (s : State), 9 < n.toNat →
      ∃ t, exec (.encrypt n p) s = .next t ∧ OnlyRaises .roundsRange s t) ∧
    (∀ (n : Index) (p : Block) (s : State) (i : Nat), n.toNat ≤ 9 → i < n.toNat → keyValid s i = false →
      ∃ t, exec (.encrypt n p) s = .next t ∧ OnlyRaises .keyInvalid s t) ∧
    (∀ (n : Index) (p : Block), decode (0x2#4 ++ n ++ 0#12 ++ p) = some (.encrypt n p)) ∧
    (∀ (w : Word) (s : State), opField w = 0x2 → zField w ≠ 0 →
      ∃ t, runWord w s = .next t ∧ OnlyRaises .illegalCmd s t) ∧
    (∀ (p : Block) (s : State), ∃ t, exec (.encrypt 0 p) s = .next t ∧ OnlyReturns (finalPerm p) s t) ∧
    (∀ s : State, keyValid s 0 = true → s.rk[0] = 0x00 → ∃ t, exec (.encrypt 1 0x000) s = .next t ∧ t.result = 0xB00) ∧
    ∀ s : State, ∃ t, serialRun [0x140000CA, 0x24000726] s = .next t ∧ t.result = 0x58C

/-- DECRYPT runs n rounds with RK[n-1] down to RK[0] and the final permutation, or raises. Formalises R89. -/
def Obligations.DecryptCommandRunsTheRoundsInReverse : Prop :=
  (∀ (n : Index) (c : Block) (s : State), n.toNat ≤ 9 → (∀ i < n.toNat, keyValid s i = true) →
    ∃ (t : State) (st : Nat → Block), exec (.decrypt n c) s = .next t ∧ OnlyReturns (finalPerm (st n.toNat)) s t ∧
      st 0 = c ∧
      ∀ i j : Fin 9, i.val + j.val + 1 = n.toNat → st (i.val + 1) = feistelRound (st i.val) s.rk[j]) ∧
    (∀ (n : Index) (c : Block) (s : State), 9 < n.toNat →
      ∃ t, exec (.decrypt n c) s = .next t ∧ OnlyRaises .roundsRange s t) ∧
    (∀ (n : Index) (c : Block) (s : State) (i : Nat), n.toNat ≤ 9 → i < n.toNat → keyValid s i = false →
      ∃ t, exec (.decrypt n c) s = .next t ∧ OnlyRaises .keyInvalid s t) ∧
    (∀ (n : Index) (c : Block), decode (0x3#4 ++ n ++ 0#12 ++ c) = some (.decrypt n c)) ∧
    (∀ (w : Word) (s : State), opField w = 0x3 → zField w ≠ 0 →
      ∃ t, runWord w s = .next t ∧ OnlyRaises .illegalCmd s t) ∧
    (∀ (c : Block) (s : State), ∃ t, exec (.decrypt 0 c) s = .next t ∧ OnlyReturns (finalPerm c) s t) ∧
    (∀ (n : Index) (p : Block) (s t u : State), n.toNat ≤ 9 → (∀ i < n.toNat, keyValid s i = true) →
      exec (.encrypt n p) s = .next t → (∀ i : Fin 9, i.val < n.toNat → u.rk[i] = s.rk[i] ∧ keyValid u i.val = true) →
      ∃ v, exec (.decrypt n t.result) u = .next v ∧ v.result = p) ∧
    (∀ (b : Block) (s : State), keyValid s 0 = true →
      ∃ t u, exec (.encrypt 1 b) s = .next t ∧ exec (.decrypt 1 b) s = .next u ∧ t.result = u.result) ∧
    (∃ (b : Block) (s t u : State), exec (.encrypt 2 b) s = .next t ∧ exec (.decrypt 2 b) s = .next u ∧
      t.err = 0 ∧ u.err = 0 ∧ t.result ≠ u.result) ∧
    ∀ s : State, ∃ t, serialRun [0x140000CA, 0x3400058C] s = .next t ∧ t.result = 0x726

/-- Decrypting what was encrypted with the same round keys gives the plaintext back. Formalises R87. -/
def Obligations.DecryptUndoesEncrypt : Prop :=
  (∀ (p : Block) (ks : List RoundKey), dec (enc p ks) ks = p) ∧
    ∀ (n : Index) (p : Block) (s : State), n.toNat ≤ 9 → (∀ i < n.toNat, keyValid s i = true) →
      ∃ t u, exec (.encrypt n p) s = .next t ∧ exec (.decrypt n t.result) t = .next u ∧ u.err = 0 ∧ u.result = p

/-- ENCRYPT n right after KEYGEN n, K and ROUND i right after WRKEY i, k use the new keys. Rests on
spec/70_reset_and_hazards.md section 3 (R116); spec/41_key_schedule.md section 2 (R80); spec/42_encrypt_decrypt.md
section 2 (R88). -/
def Obligations.KeygenThenEncryptIsTheCipher : Prop :=
  (∀ (n : Index) (key : MasterKey) (p : Block) (s : State), n.toNat ≤ 9 →
    ∃ t u, exec (.keygen n key) s = .next t ∧ exec (.encrypt n p) t = .next u ∧ u.err = 0 ∧
      u.result = enc p ((List.range n.toNat).map (keySched Config.ksSignedLeftMask key))) ∧
    ∀ (i : Fin 9) (k : RoundKey) (b : Block) (s : State),
      ∃ t u, exec (.wrkey (BitVec.ofNat 4 i.val) k) s = .next t ∧
        exec (.round (BitVec.ofNat 4 i.val) b) t = .next u ∧ u.err = 0 ∧ u.result = feistelRound b k

/-- A command reports exactly one code: illegal first, then the range errors, then an invalid key. Formalises R95,
R97. -/
def Obligations.OneCodeByPriority : Prop :=
  (∀ (w : Word) (s : State), ∃ t, runWord w s = .next t ∧
    t.err =
      if illegalWord w = true then 4
      else if opField w = 0x1 ∨ opField w = 0x2 ∨ opField w = 0x3 then
        if 9 < (nField w).toNat then 1
        else if opField w ≠ 0x1 ∧ keysValid s (nField w).toNat = false then 2 else 0
      else if opField w = 0x4 ∨ opField w = 0x5 ∨ opField w = 0x8 ∨ opField w = 0x9 then
        if 8 < (nField w).toNat then 3
        else if opField w ≠ 0x4 ∧ keyValid s (nField w).toNat = false then 2 else 0
      else 0) ∧
    (∀ s : State, ∃ t, runWord 0x8C000040 s = .next t ∧ t.err = 4) ∧
    ∀ (p : Block) (s : State), ∃ t, runWord (0x2A000#20 ++ p) s = .next t ∧ t.err = 1

/-- A command that raises an error changes nothing but the status, save that KEYGEN above 9 clears the valid bits.
Formalises R96. -/
def Obligations.ErrorsChangeNothingElse : Prop :=
  (∀ (w : Word) (s t : State), runWord w s = .next t → t.err ≠ 0 →
    t.busy = false ∧ t.done = true ∧ t.result = s.result ∧ t.rk = s.rk ∧ t.inputs = s.inputs ∧
      (t.rkv = s.rkv ∨ ∃ n key, decode w = some (.keygen n key) ∧ 9 < n.toNat)) ∧
    ∀ (w : Word) (n : Index) (key : MasterKey) (s : State), decode w = some (.keygen n key) → 9 < n.toNat →
      ∃ t, runWord w s = .next t ∧ t.err = 1 ∧ t.rkv = 0 ∧ t.rk = s.rk ∧ t.result = s.result

/-- Acceptance clears ERR, and the command's completion writes its own code. Formalises R98. -/
def Obligations.ErrIsNotSticky : Prop :=
  (∀ s : State, s.pins.rst = false → s.busy = false → s.pins.cmdValid = true →
    ∃ t, step s = .next t ∧ t.err = 0 ∧ t.busy = true) ∧
    ∀ (w : Word) (s : State) (e : BitVec 3) (d : Bool) (r : Block),
      ∃ t u, runWord w s = .next t ∧ runWord w { s with err := e, done := d, result := r } = .next u ∧ u.err = t.err

/-- Only KEYGEN, WRKEY and reset write RK or RKV. Formalises R83. -/
def Obligations.OnlyKeyCommandsAndResetWriteKeys : Prop :=
  ∀ s t : State, step s = .next t → (t.rk ≠ s.rk ∨ t.rkv ≠ s.rkv) →
    s.pins.rst = true ∨
      (s.busy = true ∧ t.busy = false ∧
        ((∃ n key, decode s.cmd = some (.keygen n key)) ∨ ∃ idx key, decode s.cmd = some (.wrkey idx key)))

/-- RESULT is written only by a successful value-producing command or by reset. Rests on spec/10_state.md section 4
(R24); spec/70_reset_and_hazards.md section 3 (R117). -/
def Obligations.OnlyValueCommandsAndResetWriteResult : Prop :=
  ∀ s t : State, step s = .next t → t.result ≠ s.result →
    s.pins.rst = true ∨
      (s.busy = true ∧ t.busy = false ∧ t.done = true ∧ t.err = 0 ∧
        ∃ i, decode s.cmd = some i ∧
          i.mnemonic ∈ [.encrypt, .decrypt, .rdkey, .expand, .subst, .roundf, .round, .fperm])

/-- With no key valid, the key-using commands raise KEY_INVALID and the others complete. Rests on
spec/70_reset_and_hazards.md section 2 (R112); spec/42_encrypt_decrypt.md section 1 (R86). -/
def Obligations.DriversNeedLoadedKeys : Prop :=
  (∀ (i : Instr) (s : State) (n : Nat), s.rkv = 0 → 1 ≤ n → n ≤ 9 →
    ((∃ b, i = .encrypt (BitVec.ofNat 4 n) b ∨ i = .decrypt (BitVec.ofNat 4 n) b ∨ i = .round (BitVec.ofNat 4 (n - 1)) b) ∨
      (∃ h, i = .roundf (BitVec.ofNat 4 (n - 1)) h) ∨ i = .rdkey (BitVec.ofNat 4 (n - 1))) →
    ∃ t, exec i s = .next t ∧ OnlyRaises .keyInvalid s t) ∧
    ∀ (i : Instr) (s : State), s.rkv = 0 →
      (i = .nop ∨ (∃ h, i = .expand h) ∨ (∃ y, i = .subst y) ∨ (∃ b, i = .fperm b ∨ i = .encrypt 0 b ∨ i = .decrypt 0 b)) →
      ∃ t, exec i s = .next t ∧ t.err = 0 ∧ t.done = true ∧ t.busy = false

/-- Every command is idempotent: a second execution leaves the observable state of the first. Rests on
spec/70_reset_and_hazards.md section 3 (R114); spec/90_conflicts.md C12. -/
def Obligations.RepeatedCommandChangesNothing : Prop :=
  ∀ (w : Word) (s : State), ∃ t u, runWord w s = .next t ∧ runWord w t = .next u ∧ u.visible = t.visible

/-- At a completing edge a step runs the command that CMD decodes to. Rests on spec/20_memory.md section 2 (R41);
spec/10_state.md section 6 (R27). `withFetchWord` is the model's, log 11, and so is completing with `wait = 0`, log
16. -/
def Obligations.StepRunsTheDecodedCommand : Prop :=
  (∀ (s : State) (i : Instr), s.pins.rst = false → s.busy = true → s.wait ≤ 1 → i.wellFormed = true →
    decode s.cmd = some i → step s = exec i { s with inputs := s.inputs.tail }) ∧
    (∀ s : State, s.pins.rst = false → s.busy = true → s.wait ≤ 1 → decode s.cmd = none →
      ∃ t, step s = .next t ∧ t.busy = false ∧ t.done = true ∧ t.err = 4 ∧ KeepsKeys s t ∧ KeepsResult s t) ∧
    ∀ (s : State) (w : Nat) (i : Instr), w < 2 ^ 32 → decode (BitVec.ofNat 32 w) = some i →
      step (s.withFetchWord 32 w) = exec i (s.withFetchWord 32 w).tick

/-- cmd_ready is 1 exactly when BUSY = 0 and rst = 0. Formalises R31. -/
def Obligations.ReadyIsIdleAndNotReset : Prop :=
  ∀ s : State, cmdReady s = true ↔ s.busy = false ∧ s.pins.rst = false

/-- A command is accepted exactly at an edge with rst = 0, BUSY = 0 and cmd_valid = 1. Formalises R39. -/
def Obligations.AcceptanceLatchesTheWord : Prop :=
  (∀ s : State, s.pins.rst = false → s.busy = false → s.pins.cmdValid = true →
    ∃ t, step s = .next t ∧ t.cmd = s.pins.cmd ∧ t.busy = true ∧ t.done = false ∧ t.err = 0 ∧
      KeepsKeys s t ∧ KeepsResult s t ∧ t.inputs = s.inputs.tail) ∧
    (∀ s t : State, ¬ (s.pins.rst = false ∧ s.busy = false ∧ s.pins.cmdValid = true) → step s = .next t →
      t.busy = true → s.busy = true ∧ t.cmd = s.cmd) ∧
    ∀ s : State, s.pins.cmdValid = true →
      (cmdReady s = true ↔ s.busy = false ∧ ∃ t, step s = .next t ∧ t.busy = true)

/-- A word presented while cmd_ready = 0, or without cmd_valid, has no effect. Formalises R40. -/
def Obligations.WordsNotAcceptedHaveNoEffect : Prop :=
  (∀ (s : State) (rst v v' : Bool) (w w' : Word) (rest : List PortSample), (s.busy = true ∨ rst = true) →
    step { s with inputs := ⟨rst, v, w⟩ :: rest } = step { s with inputs := ⟨rst, v', w'⟩ :: rest }) ∧
    ∀ (s : State) (rst : Bool) (w w' : Word) (rest : List PortSample),
      step { s with inputs := ⟨rst, false, w⟩ :: rest } = step { s with inputs := ⟨rst, false, w'⟩ :: rest }

/-- While BUSY = 0 and no command is accepted, no state changes. Formalises R44. -/
def Obligations.IdleEdgeChangesNothing : Prop :=
  ∀ s : State, s.busy = false → s.pins.rst = false → s.pins.cmdValid = false →
    ∃ t, step s = .next t ∧ t = { s with inputs := s.inputs.tail } ∧
      statusOutput t = statusOutput s ∧ resultOutput t = resultOutput s

/-- The status word's fields stand where the table puts them; while busy BUSY = 1, DONE = 0, ERR = 0. Rests on
spec/10_state.md section 2 (R21); spec/20_memory.md section 2 (R43). -/
def Obligations.StatusWordLayout : Prop :=
  (∀ s : State, (statusOutput s).getLsbD 0 = s.busy ∧ (statusOutput s).getLsbD 1 = s.done ∧
    (statusOutput s).extractLsb' 2 3 = s.err ∧ (statusOutput s).extractLsb' 5 11 = 0 ∧
    (statusOutput s).extractLsb' 25 7 = 0 ∧
    (s.busy = false → ∀ i : Fin 9, (statusOutput s).getLsbD (16 + i.val) = keyValid s i.val)) ∧
    ∀ s : State, s.Inv → s.busy = true → (statusOutput s).extractLsb' 0 16 = 1

/-- Between acceptance and completion no architectural effect shows; all of them come at the completing edge. Rests on
spec/20_memory.md section 2 (R43); spec/10_state.md section 2 (R18). That a state with `wait = 0` completes is the
model's choice, log 16. -/
def Obligations.BusyEdgesCommitNothing : Prop :=
  (∀ s : State, s.busy = true → s.pins.rst = false → 1 < s.wait →
    ∃ t, step s = .next t ∧ t.busy = true ∧ t.done = s.done ∧ t.err = s.err ∧ KeepsKeys s t ∧ KeepsResult s t ∧
      t.cmd = s.cmd ∧ t.wait + 1 = s.wait) ∧
    ∀ s t : State, step s = .next t →
      (s.busy = true → t.busy = false → s.pins.rst = true ∨ (s.wait ≤ 1 ∧ t.done = true)) ∧
        (s.busy = false → t.busy = true → s.pins.rst = false ∧ s.pins.cmdValid = true)

/-- Every edge with rst = 1 leaves BUSY, DONE, ERR, RKV and RESULT at their reset values and accepts nothing, however
long it is held. Formalises R108. -/
def Obligations.ResetEdgeGivesTheResetState : Prop :=
  (∀ (s : State) (k : Nat), 1 ≤ k → k ≤ s.inputs.length → (∀ p ∈ s.inputs.take k, p.rst = true) →
    ∃ t, edges k s = .next t ∧ t.busy = false ∧ t.done = false ∧ t.err = 0 ∧ t.rkv = 0 ∧ t.result = 0 ∧
      t.wait = 0 ∧ t.visible = State.reset.visible) ∧
    ∀ s : State, s.pins.rst = true → cmdReady s = false

/-- A reset edge during a command, its completing edge included, aborts it with none of its effects. Formalises R110,
R102. -/
def Obligations.ResetAbortsTheCommandInFlight : Prop :=
  (∀ s : State, s.busy = true → s.pins.rst = true →
    ∃ t, step s = .next t ∧ t.visible = State.reset.visible ∧ t.done = false ∧ t.rkv = 0 ∧ t.result = 0 ∧ t.wait = 0) ∧
    ∀ s t : State, s.busy = true → step s = .next t → t.busy = true → t.cmd = s.cmd

/-- After reset the engine is idle, and the first edge with rst = 0 and cmd_valid = 1 accepts a command. Formalises
R111. -/
def Obligations.AfterResetTheFirstValidWordIsAccepted : Prop :=
  ∀ (s : State) (p q : PortSample) (between rest : List PortSample), p.rst = true →
    (∀ r ∈ between, r.rst = false ∧ r.cmdValid = false) → q.rst = false → q.cmdValid = true →
    ∃ t u, edges (between.length + 1) { s with inputs := p :: (between ++ q :: rest) } = .next t ∧
      t.busy = false ∧ t.visible = State.reset.visible ∧ step t = .next u ∧ u.busy = true ∧ u.cmd = q.cmd

/-- A word left on the port is accepted again at the first edge after the completion. Rests on
spec/70_reset_and_hazards.md section 3 (R114). That a state with `wait = 0` completes is the model's choice, log 16.
-/
def Obligations.HeldWordIsAcceptedAgain : Prop :=
  ∀ (s : State) (w : Word) (rest : List PortSample), s.busy = true → s.wait ≤ 1 →
    s.inputs = ⟨false, true, w⟩ :: ⟨false, true, w⟩ :: rest →
    ∃ t u, step s = .next t ∧ t.busy = false ∧ t.done = true ∧ step t = .next u ∧ u.busy = true ∧ u.done = false ∧
      u.cmd = w

/-- A command accepted at edge t completes at edge t + LAT, with exactly the effects its rule gives. Formalises R41.
-/
def Obligations.AcceptedCommandCompletesAtItsLatency : Prop :=
  (∀ s : State, s.busy = false → s.pins.cmdValid = true →
    NoResetFor (Config.latency s.pins.cmd s.draws + 1) s →
    1 ≤ Config.latency s.pins.cmd s.draws ∧
    (∀ k, 1 ≤ k → k ≤ Config.latency s.pins.cmd s.draws → ∃ t, edges k s = .next t ∧ t.busy = true) ∧
    ∃ t u, edges (Config.latency s.pins.cmd s.draws + 1) s = .next t ∧ runWord s.pins.cmd s = .next u ∧
      t.visible = u.visible ∧ t.busy = false ∧ t.done = true) ∧
    (∀ s t : State, s.busy = true → step s = .next t → t.busy = true → t.cmd = s.cmd) ∧
    ∀ s : State, s.busy = true → s.pins.rst = true → ∃ t, step s = .next t ∧ t.visible = State.reset.visible

/-- Without reset every command in flight completes within LAT_MAX edges, with a result that does not depend on the
latency. Formalises R118. -/
def Obligations.EveryCommandCompletesWithinLatMax : Prop :=
  (∀ (w : Word) (k : Nat), 1 ≤ Config.latency w k ∧ Config.latency w k ≤ Config.latMax) ∧
    ∀ s : State, s.Inv → s.busy = true → NoResetFor Config.latMax s →
      ∃ k t u, 1 ≤ k ∧ k ≤ Config.latMax ∧ edges k s = .next t ∧ t.busy = false ∧ t.done = true ∧
        (∀ j < k, ∃ v, edges j s = .next v ∧ v.busy = true) ∧
        runWord s.cmd s = .next u ∧ t.visible = u.visible

/-- The state after any number of completions is the fold of the accepted words' rules over the starting state. Rests
on spec/20_memory.md section 3 (R45); spec/20_memory.md section 2 (R42). -/
def Obligations.EngineIsTheSerialFoldOfItsWords : Prop :=
  ∀ (s t : State) (k : Nat), s.busy = false → NoResetFor k s → edges k s = .next t → t.busy = false →
    ∃ u, serialRun (acceptedWords k s) s = .next u ∧ t.visible = u.visible

/-- Invalid round keys and the hidden registers never influence anything observable. Rests on spec/10_state.md section
3 (R23); spec/10_state.md section 8 (R33); spec/93_implementation_defined.md items 8 and 10. Equal `draws` give both
states the same latencies and free values: the model's choice, log 9. -/
def Obligations.HiddenContentsNeverShow : Prop :=
  ∀ s s' : State, s.looksLike s' →
    (∃ t t', step s = .next t ∧ step s' = .next t' ∧ t.looksLike t') ∧ cmdReady s = cmdReady s' ∧
      (s.busy = false → statusOutput s = statusOutput s' ∧ resultOutput s = resultOutput s')

/-- The reference engine, one round a cycle, ends every command at its reference latency in the state the command's
rule gives. Rests on spec/70_reset_and_hazards.md section 4 (R119, R120). What `RC` holds after the last round of
`DECRYPT` is the model's reading, log 12. -/
def Obligations.ReferenceEngineConforms : Prop :=
  ∀ s : State, s.busy = false → s.pins.cmdValid = true → NoResetFor (refLatency s.pins.cmd s + 1) s →
    1 ≤ refLatency s.pins.cmd s ∧ refLatency s.pins.cmd s ≤ 10 ∧
    (∀ k, 1 ≤ k → k ≤ refLatency s.pins.cmd s → ∃ t, refEdges k s = .next t ∧ t.busy = true) ∧
    ∃ t u, refEdges (refLatency s.pins.cmd s + 1) s = .next t ∧ runWord s.pins.cmd s = .next u ∧
      t.visible = u.visible

/-- Right after KEYGEN: DECRYPT, RDKEY, ROUNDF and ROUND, and right after WRKEY: RDKEY, ROUNDF, ENCRYPT and DECRYPT,
use the new keys. Rests on spec/70_reset_and_hazards.md section 3 (R116); spec/41_key_schedule.md section 2 (R80, R81,
R82); spec/40_round_datapath.md section 2 (R74, R75); spec/42_encrypt_decrypt.md section 2 (R88, R89). -/
def Obligations.EveryOtherKeyCommandSeesTheNewKeys : Prop :=
  (∀ (n : Index) (key : MasterKey) (s : State), n.toNat ≤ 9 → ∃ t, exec (.keygen n key) s = .next t ∧
    (∀ c : Block, ∃ u, exec (.decrypt n c) t = .next u ∧
      OnlyReturns (dec c ((List.range n.toNat).map (keySched Config.ksSignedLeftMask key))) t u) ∧
    ∀ i : Fin 9, i.val < n.toNat →
      (∃ u, exec (.rdkey (BitVec.ofNat 4 i.val)) t = .next u ∧
        OnlyReturns ((keySched Config.ksSignedLeftMask key i.val).setWidth 12) t u) ∧
      (∀ h : HalfBlock, ∃ u, exec (.roundf (BitVec.ofNat 4 i.val) h) t = .next u ∧
        OnlyReturns ((feistel h (keySched Config.ksSignedLeftMask key i.val)).setWidth 12) t u) ∧
      ∀ b : Block, ∃ u, exec (.round (BitVec.ofNat 4 i.val) b) t = .next u ∧
        OnlyReturns (feistelRound b (keySched Config.ksSignedLeftMask key i.val)) t u) ∧
    ∀ (i : Fin 9) (k : RoundKey) (s : State), ∃ t, exec (.wrkey (BitVec.ofNat 4 i.val) k) s = .next t ∧
      (∃ u, exec (.rdkey (BitVec.ofNat 4 i.val)) t = .next u ∧ OnlyReturns (k.setWidth 12) t u) ∧
      (∀ h : HalfBlock, ∃ u, exec (.roundf (BitVec.ofNat 4 i.val) h) t = .next u ∧
        OnlyReturns ((feistel h k).setWidth 12) t u) ∧
      ∀ n : Index, n.toNat ≤ 9 → i.val < n.toNat →
        (∀ j : Fin 9, j.val < n.toNat → j ≠ i → keyValid s j.val = true) →
        (∀ p : Block, ∃ u, exec (.encrypt n p) t = .next u ∧
          OnlyReturns (enc p ((s.rk.set i k).toList.take n.toNat)) t u) ∧
        ∀ c : Block, ∃ u, exec (.decrypt n c) t = .next u ∧
          OnlyReturns (dec c ((s.rk.set i k).toList.take n.toNat)) t u
end

