-- ==== Sys2Proof/Laws/State.lean ====
section
/-! SUPPORT. What each update of the state makes of each field: one lemma per field per update, so that no proof unfolds
a record update. -/

namespace Sys2Proof.Machine

/-! ### The loop registers take unspecified values. -/

@[simp] theorem scrambleLoop_busy (s : State) : (scrambleLoop s).busy = s.busy := rfl
@[simp] theorem scrambleLoop_done (s : State) : (scrambleLoop s).done = s.done := rfl
@[simp] theorem scrambleLoop_err (s : State) : (scrambleLoop s).err = s.err := rfl
@[simp] theorem scrambleLoop_rk (s : State) : (scrambleLoop s).rk = s.rk := rfl
@[simp] theorem scrambleLoop_rkv (s : State) : (scrambleLoop s).rkv = s.rkv := rfl
@[simp] theorem scrambleLoop_result (s : State) : (scrambleLoop s).result = s.result := rfl
@[simp] theorem scrambleLoop_cmd (s : State) : (scrambleLoop s).cmd = s.cmd := rfl
@[simp] theorem scrambleLoop_rc (s : State) : (scrambleLoop s).rc = Config.freeRc s.draws := rfl
@[simp] theorem scrambleLoop_st (s : State) : (scrambleLoop s).st = Config.freeSt s.draws := rfl
@[simp] theorem scrambleLoop_wait (s : State) : (scrambleLoop s).wait = s.wait := rfl
@[simp] theorem scrambleLoop_draws (s : State) : (scrambleLoop s).draws = s.draws + 1 := rfl
@[simp] theorem scrambleLoop_inputs (s : State) : (scrambleLoop s).inputs = s.inputs := rfl

/-! ### Completion (R41). -/

@[simp] theorem complete_busy (c : Completion) (s : State) : (complete c s).busy = false := rfl
@[simp] theorem complete_done (c : Completion) (s : State) : (complete c s).done = true := rfl
@[simp] theorem complete_err (c : Completion) (s : State) : (complete c s).err = c.code := rfl
@[simp] theorem complete_rk (c : Completion) (s : State) : (complete c s).rk = s.rk := rfl
@[simp] theorem complete_rkv (c : Completion) (s : State) : (complete c s).rkv = s.rkv := rfl
@[simp] theorem complete_result (c : Completion) (s : State) : (complete c s).result = s.result := rfl
@[simp] theorem complete_cmd (c : Completion) (s : State) : (complete c s).cmd = Config.freeCmd s.draws := rfl
@[simp] theorem complete_rc (c : Completion) (s : State) : (complete c s).rc = Config.freeRc s.draws := rfl
@[simp] theorem complete_st (c : Completion) (s : State) : (complete c s).st = Config.freeSt s.draws := rfl
@[simp] theorem complete_wait (c : Completion) (s : State) : (complete c s).wait = 0 := rfl
@[simp] theorem complete_draws (c : Completion) (s : State) : (complete c s).draws = s.draws + 1 := rfl
@[simp] theorem complete_inputs (c : Completion) (s : State) : (complete c s).inputs = s.inputs := rfl

/-! ### One round key is written (R81). -/

@[simp] theorem writeKey_busy (i : Fin 9) (k : RoundKey) (s : State) : (writeKey i k s).busy = s.busy := rfl
@[simp] theorem writeKey_done (i : Fin 9) (k : RoundKey) (s : State) : (writeKey i k s).done = s.done := rfl
@[simp] theorem writeKey_err (i : Fin 9) (k : RoundKey) (s : State) : (writeKey i k s).err = s.err := rfl
@[simp] theorem writeKey_rk (i : Fin 9) (k : RoundKey) (s : State) : (writeKey i k s).rk = s.rk.set i k := rfl
@[simp] theorem writeKey_rkv (i : Fin 9) (k : RoundKey) (s : State) :
    (writeKey i k s).rkv = s.rkv ||| (1#9 <<< i.val) := rfl
@[simp] theorem writeKey_result (i : Fin 9) (k : RoundKey) (s : State) : (writeKey i k s).result = s.result := rfl
@[simp] theorem writeKey_cmd (i : Fin 9) (k : RoundKey) (s : State) : (writeKey i k s).cmd = s.cmd := rfl
@[simp] theorem writeKey_rc (i : Fin 9) (k : RoundKey) (s : State) : (writeKey i k s).rc = s.rc := rfl
@[simp] theorem writeKey_st (i : Fin 9) (k : RoundKey) (s : State) : (writeKey i k s).st = s.st := rfl
@[simp] theorem writeKey_wait (i : Fin 9) (k : RoundKey) (s : State) : (writeKey i k s).wait = s.wait := rfl
@[simp] theorem writeKey_draws (i : Fin 9) (k : RoundKey) (s : State) : (writeKey i k s).draws = s.draws := rfl
@[simp] theorem writeKey_inputs (i : Fin 9) (k : RoundKey) (s : State) : (writeKey i k s).inputs = s.inputs := rfl

/-! ### The key schedule is loaded (R80). -/

@[simp] theorem loadSchedule_busy (n : Nat) (key : MasterKey) (s : State) : (loadSchedule n key s).busy = s.busy := rfl
@[simp] theorem loadSchedule_done (n : Nat) (key : MasterKey) (s : State) : (loadSchedule n key s).done = s.done := rfl
@[simp] theorem loadSchedule_err (n : Nat) (key : MasterKey) (s : State) : (loadSchedule n key s).err = s.err := rfl
@[simp] theorem loadSchedule_rk (n : Nat) (key : MasterKey) (s : State) : (loadSchedule n key s).rk =
    Vector.ofFn fun j : Fin 9 =>
      if j.val < n then scheduleKey key j.val else Config.freeRoundKey s.draws j.val := rfl
@[simp] theorem loadSchedule_rkv (n : Nat) (key : MasterKey) (s : State) :
    (loadSchedule n key s).rkv = validBelow n := rfl
@[simp] theorem loadSchedule_result (n : Nat) (key : MasterKey) (s : State) :
    (loadSchedule n key s).result = s.result := rfl
@[simp] theorem loadSchedule_cmd (n : Nat) (key : MasterKey) (s : State) : (loadSchedule n key s).cmd = s.cmd := rfl
@[simp] theorem loadSchedule_rc (n : Nat) (key : MasterKey) (s : State) : (loadSchedule n key s).rc = s.rc := rfl
@[simp] theorem loadSchedule_st (n : Nat) (key : MasterKey) (s : State) : (loadSchedule n key s).st = s.st := rfl
@[simp] theorem loadSchedule_wait (n : Nat) (key : MasterKey) (s : State) : (loadSchedule n key s).wait = s.wait := rfl
@[simp] theorem loadSchedule_draws (n : Nat) (key : MasterKey) (s : State) :
    (loadSchedule n key s).draws = s.draws := rfl
@[simp] theorem loadSchedule_inputs (n : Nat) (key : MasterKey) (s : State) :
    (loadSchedule n key s).inputs = s.inputs := rfl

/-! ### No key stays valid (R80). -/

@[simp] theorem invalidateKeys_busy (s : State) : (invalidateKeys s).busy = s.busy := rfl
@[simp] theorem invalidateKeys_done (s : State) : (invalidateKeys s).done = s.done := rfl
@[simp] theorem invalidateKeys_err (s : State) : (invalidateKeys s).err = s.err := rfl
@[simp] theorem invalidateKeys_rk (s : State) : (invalidateKeys s).rk = s.rk := rfl
@[simp] theorem invalidateKeys_rkv (s : State) : (invalidateKeys s).rkv = 0 := rfl
@[simp] theorem invalidateKeys_result (s : State) : (invalidateKeys s).result = s.result := rfl
@[simp] theorem invalidateKeys_cmd (s : State) : (invalidateKeys s).cmd = s.cmd := rfl
@[simp] theorem invalidateKeys_rc (s : State) : (invalidateKeys s).rc = s.rc := rfl
@[simp] theorem invalidateKeys_st (s : State) : (invalidateKeys s).st = s.st := rfl
@[simp] theorem invalidateKeys_wait (s : State) : (invalidateKeys s).wait = s.wait := rfl
@[simp] theorem invalidateKeys_draws (s : State) : (invalidateKeys s).draws = s.draws := rfl
@[simp] theorem invalidateKeys_inputs (s : State) : (invalidateKeys s).inputs = s.inputs := rfl

/-! ### The host's next sample comes up. -/

@[simp] theorem State.tick_busy (s : State) : s.tick.busy = s.busy := rfl
@[simp] theorem State.tick_done (s : State) : s.tick.done = s.done := rfl
@[simp] theorem State.tick_err (s : State) : s.tick.err = s.err := rfl
@[simp] theorem State.tick_rk (s : State) : s.tick.rk = s.rk := rfl
@[simp] theorem State.tick_rkv (s : State) : s.tick.rkv = s.rkv := rfl
@[simp] theorem State.tick_result (s : State) : s.tick.result = s.result := rfl
@[simp] theorem State.tick_cmd (s : State) : s.tick.cmd = s.cmd := rfl
@[simp] theorem State.tick_rc (s : State) : s.tick.rc = s.rc := rfl
@[simp] theorem State.tick_st (s : State) : s.tick.st = s.st := rfl
@[simp] theorem State.tick_wait (s : State) : s.tick.wait = s.wait := rfl
@[simp] theorem State.tick_draws (s : State) : s.tick.draws = s.draws := rfl
@[simp] theorem State.tick_inputs (s : State) : s.tick.inputs = s.inputs.tail := rfl

/-! ### A reset edge (R108). -/

@[simp] theorem resetEdge_busy (s : State) : (resetEdge s).busy = false := rfl
@[simp] theorem resetEdge_done (s : State) : (resetEdge s).done = false := rfl
@[simp] theorem resetEdge_err (s : State) : (resetEdge s).err = 0 := rfl
@[simp] theorem resetEdge_rk (s : State) :
    (resetEdge s).rk = Vector.ofFn fun j : Fin 9 => Config.freeRoundKey s.draws j.val := rfl
@[simp] theorem resetEdge_rkv (s : State) : (resetEdge s).rkv = 0 := rfl
@[simp] theorem resetEdge_result (s : State) : (resetEdge s).result = 0 := rfl
@[simp] theorem resetEdge_cmd (s : State) : (resetEdge s).cmd = Config.freeCmd s.draws := rfl
@[simp] theorem resetEdge_rc (s : State) : (resetEdge s).rc = Config.freeRc s.draws := rfl
@[simp] theorem resetEdge_st (s : State) : (resetEdge s).st = Config.freeSt s.draws := rfl
@[simp] theorem resetEdge_wait (s : State) : (resetEdge s).wait = 0 := rfl
@[simp] theorem resetEdge_draws (s : State) : (resetEdge s).draws = s.draws + 1 := rfl
@[simp] theorem resetEdge_inputs (s : State) : (resetEdge s).inputs = s.inputs := rfl

/-! ### Acceptance (R39). -/

@[simp] theorem accept_busy (w : Word) (s : State) : (accept w s).busy = true := rfl
@[simp] theorem accept_done (w : Word) (s : State) : (accept w s).done = false := rfl
@[simp] theorem accept_err (w : Word) (s : State) : (accept w s).err = 0 := rfl
@[simp] theorem accept_rk (w : Word) (s : State) : (accept w s).rk = s.rk := rfl
@[simp] theorem accept_rkv (w : Word) (s : State) : (accept w s).rkv = s.rkv := rfl
@[simp] theorem accept_result (w : Word) (s : State) : (accept w s).result = s.result := rfl
@[simp] theorem accept_cmd (w : Word) (s : State) : (accept w s).cmd = w := rfl
@[simp] theorem accept_rc (w : Word) (s : State) : (accept w s).rc = Config.freeRc s.draws := rfl
@[simp] theorem accept_st (w : Word) (s : State) : (accept w s).st = Config.freeSt s.draws := rfl
@[simp] theorem accept_wait (w : Word) (s : State) : (accept w s).wait = Config.latency w s.draws := rfl
@[simp] theorem accept_draws (w : Word) (s : State) : (accept w s).draws = s.draws + 1 := rfl
@[simp] theorem accept_inputs (w : Word) (s : State) : (accept w s).inputs = s.inputs := rfl

/-! ### An edge inside a command (R43). -/

@[simp] theorem busyEdge_busy (s : State) : (busyEdge s).busy = s.busy := rfl
@[simp] theorem busyEdge_done (s : State) : (busyEdge s).done = s.done := rfl
@[simp] theorem busyEdge_err (s : State) : (busyEdge s).err = s.err := rfl
@[simp] theorem busyEdge_rk (s : State) : (busyEdge s).rk = s.rk := rfl
@[simp] theorem busyEdge_rkv (s : State) : (busyEdge s).rkv = s.rkv := rfl
@[simp] theorem busyEdge_result (s : State) : (busyEdge s).result = s.result := rfl
@[simp] theorem busyEdge_cmd (s : State) : (busyEdge s).cmd = s.cmd := rfl
@[simp] theorem busyEdge_rc (s : State) : (busyEdge s).rc = Config.freeRc s.draws := rfl
@[simp] theorem busyEdge_st (s : State) : (busyEdge s).st = Config.freeSt s.draws := rfl
@[simp] theorem busyEdge_wait (s : State) : (busyEdge s).wait = s.wait - 1 := rfl
@[simp] theorem busyEdge_draws (s : State) : (busyEdge s).draws = s.draws + 1 := rfl
@[simp] theorem busyEdge_inputs (s : State) : (busyEdge s).inputs = s.inputs := rfl

/-! ### A word placed at its completing edge. -/

@[simp] theorem inFlight_busy (w : Word) (s : State) : (inFlight w s).busy = true := rfl
@[simp] theorem inFlight_done (w : Word) (s : State) : (inFlight w s).done = false := rfl
@[simp] theorem inFlight_err (w : Word) (s : State) : (inFlight w s).err = 0 := rfl
@[simp] theorem inFlight_rk (w : Word) (s : State) : (inFlight w s).rk = s.rk := rfl
@[simp] theorem inFlight_rkv (w : Word) (s : State) : (inFlight w s).rkv = s.rkv := rfl
@[simp] theorem inFlight_result (w : Word) (s : State) : (inFlight w s).result = s.result := rfl
@[simp] theorem inFlight_cmd (w : Word) (s : State) : (inFlight w s).cmd = w := rfl
@[simp] theorem inFlight_rc (w : Word) (s : State) : (inFlight w s).rc = s.rc := rfl
@[simp] theorem inFlight_st (w : Word) (s : State) : (inFlight w s).st = s.st := rfl
@[simp] theorem inFlight_wait (w : Word) (s : State) : (inFlight w s).wait = 1 := rfl
@[simp] theorem inFlight_draws (w : Word) (s : State) : (inFlight w s).draws = s.draws := rfl
@[simp] theorem inFlight_inputs (w : Word) (s : State) : (inFlight w s).inputs = releaseReset s.inputs := rfl

end Sys2Proof.Machine
end

