-- ==== Sys2Proof/Laws/Ops.lean ====
section
/-! SUPPORT. For each shared operation one lemma that says once what it can do. -/

namespace Sys2Proof.Machine

/-- Codes 5, 6 and 7 are never written (R94). -/
theorem code_toNat_le (c : Completion) : c.code.toNat ≤ 4 := by cases c <;> decide

/-! ### The key schedule (R78) -/

/-- The two readings of the left mask give the same round key below index 8. -/
theorem keySched_signed_eq : ∀ (i : Fin 8) (key : MasterKey), keySched true key i.val = keySched false key i.val := by
  decide +kernel

theorem scheduleKey_eq (key : MasterKey) (i : Nat) :
    scheduleKey key i = keySched Config.ksSignedLeftMask key i := by
  unfold scheduleKey
  split
  · cases Config.ksSignedLeftMask with
    | false => rfl
    | true => exact (keySched_signed_eq ⟨i, ‹_›⟩ key).symm
  · rfl

/-! ### Valid bits (R23, R86) -/

@[simp] theorem validBelow_getLsbD (n j : Nat) :
    (validBelow n).getLsbD j = (decide (j < 9) && decide (j < n)) := by
  unfold validBelow
  rw [BitVec.getLsbD_not, BitVec.getLsbD_shiftLeft, BitVec.getLsbD_allOnes]
  by_cases h9 : j < 9 <;> by_cases hn : j < n <;> simp [h9, hn]
  omega

theorem keysValid_iff (s : State) (n : Nat) : keysValid s n = true ↔ ∀ i < n, keyValid s i = true := by
  simp [keysValid]

@[simp] theorem keyValid_complete (c : Completion) (s : State) (i : Nat) :
    keyValid (complete c s) i = keyValid s i := rfl

@[simp] theorem keyValid_writeKey (j : Fin 9) (k : RoundKey) (s : State) (i : Nat) :
    keyValid (writeKey j k s) i = (keyValid s i || decide (i = j.val)) := by
  have hj := j.isLt
  have h : (1#9 <<< j.val).getLsbD i = decide (i = j.val) := by
    by_cases e : i = j.val
    · subst e; simp
    · simp only [BitVec.getLsbD_shiftLeft, e, decide_false]
      by_cases hlt : i < j.val
      · simp [hlt]
      · have : i - j.val ≠ 0 := by omega
        simp [BitVec.getLsbD_one, this]
  simp [keyValid, h]

@[simp] theorem keyValid_loadSchedule (n : Nat) (key : MasterKey) (s : State) (i : Nat) :
    keyValid (loadSchedule n key s) i = (decide (i < 9) && decide (i < n)) := by
  simp [keyValid]

/-! ### Operands that reach the round-key file (R60, R95, R97) -/

theorem keyIndex_ok_iff (idx : Index) (i : Fin 9) : keyIndex idx = .ok i ↔ idx.toNat = i.val := by
  unfold keyIndex Config.nMax
  split
  · simp [Fin.ext_iff]
  · have := i.isLt
    simp; omega

theorem keyIndex_error_iff (idx : Index) (e : Completion) :
    keyIndex idx = .error e ↔ 8 < idx.toNat ∧ e = .indexRange := by
  unfold keyIndex Config.nMax
  split
  · simp; omega
  · simp [eq_comm]; omega

theorem keyOperand_ok_iff (idx : Index) (s : State) (k : RoundKey) :
    keyOperand idx s = .ok k ↔
      ∃ i : Fin 9, idx.toNat = i.val ∧ keyValid s i.val = true ∧ k = s.rk[i] := by
  unfold keyOperand
  split
  case h_1 e h =>
    rw [keyIndex_error_iff] at h
    constructor
    · intro hc; cases hc
    · rintro ⟨i, hi, -⟩; omega
  case h_2 i h =>
    rw [keyIndex_ok_iff] at h
    constructor
    · intro hc
      split at hc
      · exact ⟨i, h, ‹_›, by cases hc; rfl⟩
      · cases hc
    · rintro ⟨j, hj, hv, rfl⟩
      obtain rfl : i = j := Fin.ext (h.symm.trans hj)
      simp [hv]

theorem keyOperand_error_iff (idx : Index) (s : State) (e : Completion) :
    keyOperand idx s = .error e ↔
      (8 < idx.toNat ∧ e = .indexRange) ∨
        (idx.toNat ≤ 8 ∧ keyValid s idx.toNat = false ∧ e = .keyInvalid) := by
  unfold keyOperand
  split
  case h_1 e' h =>
    rw [keyIndex_error_iff] at h
    obtain ⟨h8, rfl⟩ := h
    constructor
    · rintro ⟨⟩; exact .inl ⟨h8, rfl⟩
    · rintro (⟨-, rfl⟩ | ⟨h9, -⟩)
      · rfl
      · omega
  case h_2 i h =>
    rw [keyIndex_ok_iff] at h
    have := i.isLt
    rw [h]
    cases hv : keyValid s i.val with
    | true => simp; omega
    | false =>
      constructor
      · rintro ⟨⟩; exact .inr ⟨by omega, rfl, rfl⟩
      · rintro (⟨h8, -⟩ | ⟨-, -, rfl⟩)
        · omega
        · rfl

theorem roundKeys_ok_iff (n : Index) (s : State) (ks : List RoundKey) :
    roundKeys n s = .ok ks ↔
      n.toNat ≤ 9 ∧ keysValid s n.toNat = true ∧ ks = s.rk.toList.take n.toNat := by
  unfold roundKeys Config.nMax
  split
  · simp; omega
  · split
    · constructor
      · rintro ⟨⟩; exact ⟨by omega, ‹_›, rfl⟩
      · rintro ⟨-, -, rfl⟩; rfl
    · simp_all

theorem roundKeys_error_iff (n : Index) (s : State) (e : Completion) :
    roundKeys n s = .error e ↔
      (9 < n.toNat ∧ e = .roundsRange) ∨
        (n.toNat ≤ 9 ∧ keysValid s n.toNat = false ∧ e = .keyInvalid) := by
  unfold roundKeys Config.nMax
  split
  · constructor
    · rintro ⟨⟩; exact .inl ⟨‹_›, rfl⟩
    · rintro (⟨-, rfl⟩ | ⟨h9, -⟩)
      · rfl
      · omega
  · split
    · simp_all
    · constructor
      · rintro ⟨⟩; exact .inr ⟨by omega, by simp_all, rfl⟩
      · rintro (⟨h9, -⟩ | ⟨-, -, rfl⟩)
        · omega
        · rfl

theorem returnWith_cases {α : Type} {w : Nat} {o : Except Completion α} {f : α → BitVec w} {s t : State}
    (h : returnWith o f s = .next t) :
    (∃ e, o = .error e ∧ t = complete e s) ∨
      (∃ a, o = .ok a ∧ t = complete .ok { s with result := (f a).setWidth 12 }) := by
  cases o with
  | error e => exact .inl ⟨e, rfl, by simpa [returnWith, raise] using h.symm⟩
  | ok a => exact .inr ⟨a, rfl, by simpa [returnWith, returnValue] using h.symm⟩

/-! ### What a command can do (R83, R96) -/

theorem exec_cases {i : Instr} {s t : State} (h : exec i s = .next t) :
    (∃ c, t = complete c s) ∨
      (∃ v, t = complete .ok { s with result := v }) ∨
      (∃ n key, i = .keygen n key ∧
        ((9 < n.toNat ∧ t = complete .roundsRange (invalidateKeys s)) ∨
          (n.toNat ≤ 9 ∧ t = complete .ok (loadSchedule n.toNat key s)))) ∨
      (∃ idx key j, i = .wrkey idx key ∧ idx.toNat = j.val ∧ t = complete .ok (writeKey j key s)) := by
  have ret : ∀ {α : Type} {w : Nat} {o : Except Completion α} {f : α → BitVec w},
      returnWith o f s = .next t →
        (∃ c, t = complete c s) ∨ (∃ v, t = complete .ok { s with result := v }) := by
    intro α w o f hr
    obtain ⟨e, -, rfl⟩ | ⟨a, -, rfl⟩ := returnWith_cases hr
    · exact .inl ⟨e, rfl⟩
    · exact .inr ⟨_, rfl⟩
  have val : ∀ {w : Nat} {v : BitVec w}, returnValue v s = .next t →
      (∃ v, t = complete .ok { s with result := v }) :=
    fun hv => ⟨_, by simpa [returnValue] using hv.symm⟩
  cases i with
  | nop => exact .inl ⟨.ok, by simpa [exec, execNop] using h.symm⟩
  | keygen n key =>
    refine .inr (.inr (.inl ⟨n, key, rfl, ?_⟩))
    by_cases h9 : 9 < n.toNat
    · exact .inl ⟨h9, by simpa [exec, execKeygen, Config.nMax, raise, h9] using h.symm⟩
    · exact .inr ⟨by omega, by simpa [exec, execKeygen, Config.nMax, raise, h9] using h.symm⟩
  | wrkey idx key =>
    simp only [exec, execWrkey, raise] at h
    split at h
    case h_1 e he => exact .inl ⟨e, by simpa using h.symm⟩
    case h_2 j hj =>
      exact .inr (.inr (.inr ⟨idx, key, j, rfl, (keyIndex_ok_iff idx j).1 hj, by simpa using h.symm⟩))
  | encrypt n p => exact (ret h).imp_right .inl
  | decrypt n c => exact (ret h).imp_right .inl
  | rdkey idx => exact (ret h).imp_right .inl
  | roundf idx half => exact (ret h).imp_right .inl
  | round idx block => exact (ret h).imp_right .inl
  | expand half => exact .inr (.inl (val h))
  | subst byte => exact .inr (.inl (val h))
  | fperm block => exact .inr (.inl (val h))

/-! ### What an edge can do (R39, R41, R43, R44, R108) -/

theorem runWord_of_decode {w : Word} {i : Instr} (h : decode w = some i) (s : State) :
    runWord w s = exec i s := by simp [runWord, h]

theorem runWord_of_illegal {w : Word} (h : decode w = none) (s : State) :
    runWord w s = .next (complete .illegalCmd s) := by simp [runWord, h, illegalCommand, raise]

theorem step_of_reset {s : State} (h : s.pins.rst = true) : step s = .next (resetEdge s.tick) := by
  simp [step, clockEdge, h]

theorem step_of_completing {s : State} (hr : s.pins.rst = false) (hb : s.busy = true) (hw : s.wait ≤ 1) :
    step s = runWord s.cmd s.tick := by
  simp [step, clockEdge, runningEdge, hr, hb, hw]

theorem step_of_waiting {s : State} (hr : s.pins.rst = false) (hb : s.busy = true) (hw : 1 < s.wait) :
    step s = .next (busyEdge s.tick) := by
  simp [step, clockEdge, runningEdge, hr, hb, Nat.not_le.2 hw]

theorem step_of_accepting {s : State} (hr : s.pins.rst = false) (hb : s.busy = false)
    (hv : s.pins.cmdValid = true) : step s = .next (accept s.pins.cmd s.tick) := by
  simp [step, clockEdge, runningEdge, hr, hb, hv]

theorem step_of_idle {s : State} (hr : s.pins.rst = false) (hb : s.busy = false)
    (hv : s.pins.cmdValid = false) : step s = .next s.tick := by
  simp [step, clockEdge, runningEdge, hr, hb, hv]

/-- The five kinds of edge, with their guards. -/
theorem step_cases {s t : State} (h : step s = .next t) :
    (s.pins.rst = true ∧ t = resetEdge s.tick) ∨
      (s.pins.rst = false ∧ s.busy = true ∧ s.wait ≤ 1 ∧ runWord s.cmd s.tick = .next t) ∨
      (s.pins.rst = false ∧ s.busy = true ∧ 1 < s.wait ∧ t = busyEdge s.tick) ∨
      (s.pins.rst = false ∧ s.busy = false ∧ s.pins.cmdValid = true ∧ t = accept s.pins.cmd s.tick) ∨
      (s.pins.rst = false ∧ s.busy = false ∧ s.pins.cmdValid = false ∧ t = s.tick) := by
  cases hr : s.pins.rst with
  | true => rw [step_of_reset hr] at h; exact .inl ⟨rfl, by simpa using h.symm⟩
  | false =>
    refine .inr ?_
    cases hb : s.busy with
    | true =>
      by_cases hw : s.wait ≤ 1
      · rw [step_of_completing hr hb hw] at h; exact .inl ⟨rfl, rfl, hw, h⟩
      · rw [step_of_waiting hr hb (by omega)] at h
        exact .inr (.inl ⟨rfl, rfl, by omega, by simpa using h.symm⟩)
    | false =>
      refine .inr (.inr ?_)
      cases hv : s.pins.cmdValid with
      | true => rw [step_of_accepting hr hb hv] at h; exact .inl ⟨rfl, rfl, rfl, by simpa using h.symm⟩
      | false => rw [step_of_idle hr hb hv] at h; exact .inr ⟨rfl, rfl, rfl, by simpa using h.symm⟩

/-- The latency is in the range of R118. -/
theorem latency_bounds (w : Word) (k : Nat) : 1 ≤ Config.latency w k ∧ Config.latency w k ≤ Config.latMax := by
  have h : Config.latencySeed w k % Config.latMax < Config.latMax := Nat.mod_lt _ (Nat.succ_pos _)
  unfold Config.latency
  omega

end Sys2Proof.Machine
end

