-- ==== Sys2Proof/Laws/Commands.lean ====
section
/-! SUPPORT. Each command as one equation per outcome of its operand checks, so that no proof unfolds a meaning. -/

namespace Sys2Proof.Machine

/-! ### Operands -/

theorem keyIndex_ofNat (i : Fin 9) : keyIndex (BitVec.ofNat 4 i.val) = .ok i := by
  have := i.isLt
  rw [keyIndex_ok_iff]
  simp; omega

theorem keyIndex_of_gt {idx : Index} (h : 8 < idx.toNat) : keyIndex idx = .error .indexRange :=
  (keyIndex_error_iff _ _).2 ⟨h, rfl⟩

theorem keyOperand_of_valid {i : Fin 9} {s : State} (h : keyValid s i.val = true) :
    keyOperand (BitVec.ofNat 4 i.val) s = .ok s.rk[i] := by
  simp [keyOperand, keyIndex_ofNat, h]

theorem keyOperand_of_invalid {i : Fin 9} {s : State} (h : keyValid s i.val = false) :
    keyOperand (BitVec.ofNat 4 i.val) s = .error .keyInvalid := by
  simp [keyOperand, keyIndex_ofNat, h]

theorem keyOperand_of_gt {idx : Index} {s : State} (h : 8 < idx.toNat) : keyOperand idx s = .error .indexRange := by
  simp [keyOperand, keyIndex_of_gt h]

theorem roundKeys_of_valid {n : Index} {s : State} (h : n.toNat ≤ 9) (hv : keysValid s n.toNat = true) :
    roundKeys n s = .ok (s.rk.toList.take n.toNat) :=
  (roundKeys_ok_iff _ _ _).2 ⟨h, hv, rfl⟩

theorem roundKeys_of_invalid {n : Index} {s : State} (h : n.toNat ≤ 9) (hv : keysValid s n.toNat = false) :
    roundKeys n s = .error .keyInvalid :=
  (roundKeys_error_iff _ _ _).2 (.inr ⟨h, hv, rfl⟩)

theorem roundKeys_of_gt {n : Index} {s : State} (h : 9 < n.toNat) : roundKeys n s = .error .roundsRange :=
  (roundKeys_error_iff _ _ _).2 (.inl ⟨h, rfl⟩)

/-! ### Commands -/

theorem exec_nop (s : State) : exec .nop s = .next (complete .ok s) := rfl

theorem exec_keygen_of_le {n : Index} (h : n.toNat ≤ 9) (key : MasterKey) (s : State) :
    exec (.keygen n key) s = .next (complete .ok (loadSchedule n.toNat key s)) := by
  simp [exec, execKeygen, Config.nMax, Nat.not_lt.2 h]

theorem exec_keygen_of_gt {n : Index} (h : 9 < n.toNat) (key : MasterKey) (s : State) :
    exec (.keygen n key) s = .next (complete .roundsRange (invalidateKeys s)) := by
  simp [exec, execKeygen, Config.nMax, h, raise]

theorem exec_wrkey_ofNat (i : Fin 9) (k : RoundKey) (s : State) :
    exec (.wrkey (BitVec.ofNat 4 i.val) k) s = .next (complete .ok (writeKey i k s)) := by
  simp [exec, execWrkey, keyIndex_ofNat]

theorem exec_wrkey_of_gt {idx : Index} (h : 8 < idx.toNat) (k : RoundKey) (s : State) :
    exec (.wrkey idx k) s = .next (complete .indexRange s) := by
  simp [exec, execWrkey, keyIndex_of_gt h, raise]

theorem returnWith_ok {α : Type} {w : Nat} {o : Except Completion α} {a : α} (h : o = .ok a) (f : α → BitVec w)
    (s : State) : returnWith o f s = .next (complete .ok { s with result := (f a).setWidth 12 }) := by
  subst h; rfl

theorem returnWith_error {α : Type} {w : Nat} {o : Except Completion α} {c : Completion} (h : o = .error c)
    (f : α → BitVec w) (s : State) : returnWith o f s = .next (complete c s) := by
  subst h; rfl

theorem exec_rdkey (idx : Index) (s : State) : exec (.rdkey idx) s = returnWith (keyOperand idx s) id s := rfl

theorem exec_encrypt (n : Index) (p : Block) (s : State) :
    exec (.encrypt n p) s = returnWith (roundKeys n s) (enc p) s := rfl

theorem exec_decrypt (n : Index) (c : Block) (s : State) :
    exec (.decrypt n c) s = returnWith (roundKeys n s) (dec c) s := rfl

theorem exec_roundf (idx : Index) (h : HalfBlock) (s : State) :
    exec (.roundf idx h) s = returnWith (keyOperand idx s) (feistel h) s := rfl

theorem exec_round (idx : Index) (b : Block) (s : State) :
    exec (.round idx b) s = returnWith (keyOperand idx s) (feistelRound b) s := rfl

theorem exec_expand (h : HalfBlock) (s : State) :
    exec (.expand h) s = .next (complete .ok { s with result := (expand h).setWidth 12 }) := rfl

theorem exec_subst (y : BitVec 8) (s : State) :
    exec (.subst y) s = .next (complete .ok { s with result := (sbox y).setWidth 12 }) := rfl

theorem exec_fperm (b : Block) (s : State) :
    exec (.fperm b) s = .next (complete .ok { s with result := (finalPerm b).setWidth 12 }) := rfl

end Sys2Proof.Machine
end

