-- ==== Sys2Proof/Laws/Decode.lean ====
section
/-! SUPPORT. The fields of a word in format `C` (30_encoding.md R51), so that no proof takes an append apart. -/

namespace Sys2Proof

theorem formatC_getLsbD (op n : BitVec 4) (d : BitVec 12) (j : Nat) :
    (formatC op n d).getLsbD j =
      if j < 12 then d.getLsbD j
      else if j < 24 then false
      else if j < 28 then n.getLsbD (j - 24)
      else op.getLsbD (j - 28) := by
  show (op ++ n ++ 0#12 ++ d : BitVec (4 + 4 + 12 + 12)).getLsbD j = _
  simp only [BitVec.getLsbD_append, BitVec.getLsbD_zero, Nat.sub_sub]
  by_cases h1 : j < 12
  · simp [h1]
  · by_cases h2 : j < 24
    · simp [h1, h2, show j - 12 < 12 by omega]
    · by_cases h3 : j < 28
      · simp [h1, h2, h3, show ¬ j - 12 < 12 by omega, show j - (12 + 12) < 4 by omega]
      · simp [h1, h2, h3, show ¬ j - 12 < 12 by omega, show ¬ j - (12 + 12) < 4 by omega]

@[simp] theorem opField_formatC (op n : BitVec 4) (d : BitVec 12) : opField (formatC op n d) = op := by
  ext j hj
  simp [opField, formatC_getLsbD, ← BitVec.getLsbD_eq_getElem, hj, show ¬ 28 + j < 12 by omega,
    show ¬ 28 + j < 24 by omega, show ¬ 28 + j < 28 by omega]

@[simp] theorem nField_formatC (op n : BitVec 4) (d : BitVec 12) : nField (formatC op n d) = n := by
  ext j hj
  simp [nField, formatC_getLsbD, ← BitVec.getLsbD_eq_getElem, hj, show ¬ 24 + j < 12 by omega,
    show ¬ 24 + j < 24 by omega, show 24 + j < 28 by omega]

@[simp] theorem zField_formatC (op n : BitVec 4) (d : BitVec 12) : zField (formatC op n d) = 0 := by
  ext j hj
  simp [zField, formatC_getLsbD, ← BitVec.getLsbD_eq_getElem, show ¬ 12 + j < 12 by omega,
    show 12 + j < 24 by omega]

@[simp] theorem dField_formatC (op n : BitVec 4) (d : BitVec 12) : dField (formatC op n d) = d := by
  ext j hj
  simp [dField, formatC_getLsbD, ← BitVec.getLsbD_eq_getElem, hj]

/-- A word is its fields. -/
theorem formatC_fields (w : Word) (h : zField w = 0) : formatC (opField w) (nField w) (dField w) = w := by
  apply BitVec.eq_of_getLsbD_eq
  intro j hj
  have hz : ∀ k < 12, w.getLsbD (12 + k) = false := by
    intro k hk
    have := congrArg (·.getLsbD k) h
    simpa [zField, hk] using this
  rw [formatC_getLsbD]
  by_cases h1 : j < 12
  · simp [h1, dField]
  · by_cases h2 : j < 24
    · have := hz (j - 12) (by omega)
      rw [show 12 + (j - 12) = j by omega] at this
      simp [h1, h2, this]
    · by_cases h3 : j < 28
      · simp [h1, h2, h3, nField, show j - 24 < 4 by omega, show 24 + (j - 24) = j by omega]
      · simp [h1, h2, h3, opField, show j - 28 < 4 by omega, show 28 + (j - 28) = j by omega]

theorem dOperand_eq_some (width : Nat) (w : Word) (v : BitVec width) (h : width ≤ 12) :
    dOperand width w = some v ↔ dField w = v.setWidth 12 := by
  unfold dOperand
  split
  case isTrue hlt =>
    constructor
    · rintro ⟨⟩
      apply BitVec.eq_of_toNat_eq
      have := (dField w).isLt
      simp only [BitVec.toNat_setWidth]
      rw [Nat.mod_eq_of_lt hlt, Nat.mod_eq_of_lt this]
    · intro e
      rw [e]
      simp [BitVec.setWidth_setWidth_of_le, h]
  case isFalse hge =>
    constructor
    · intro hc; cases hc
    · intro e
      have hv := v.isLt
      have : 2 ^ width ≤ 2 ^ 12 := Nat.pow_le_pow_right (by decide) h
      rw [e, BitVec.toNat_setWidth] at hge
      exact absurd (lt_of_le_of_lt (Nat.mod_le _ _) hv) hge

theorem dOperand_eq_none (width : Nat) (w : Word) : dOperand width w = none ↔ 2 ^ width ≤ (dField w).toNat := by
  unfold dOperand
  split <;> simp_all

end Sys2Proof
end

