-- ==== Sys2Proof/Laws/PerInstr.lean ====
section
/-! SUPPORT. Facts about every command, one lemma per constructor. Family `EncodesInRow`: the word of a command carries
the fixed bits of its row of the opcode table (30_encoding.md R55, R57, R62). -/

namespace Sys2Proof.Laws

/-- The row of the opcode table that a command's word must match. -/
def EncodesInRow.Statement (i : Instr) : Prop :=
  ∃ r ∈ opcodeTable, r.mnemonic = i.mnemonic ∧ r.covers (encode i)

/-- A word in format `C` carries a row's fixed bits when each of its bits does. -/
theorem covers_formatC {r : OpcodeRow} {op n : BitVec 4} {d : BitVec 12}
    (h : ∀ j < 32,
      ((if j < 12 then d.getLsbD j else if j < 24 then false else if j < 28 then n.getLsbD (j - 24)
        else op.getLsbD (j - 28)) && r.mask.getLsbD j) = r.pattern.getLsbD j) :
    r.covers (formatC op n d) := by
  apply BitVec.eq_of_getLsbD_eq
  intro j hj
  rw [BitVec.getLsbD_and, formatC_getLsbD]
  exact h j hj

theorem EncodesInRow.nop : EncodesInRow.Statement .nop :=
  ⟨⟨.nop, 0xFFFFFFFF, 0x00000000⟩, by decide, rfl, by decide⟩

theorem EncodesInRow.keygen (n : Index) (key : MasterKey) : EncodesInRow.Statement (.keygen n key) := by
  refine ⟨⟨.keygen, 0xF0FFFE00, 0x10000000⟩, by decide, rfl, covers_formatC fun j hj => ?_⟩
  interval_cases j <;> simp

theorem EncodesInRow.encrypt (n : Index) (plain : Block) : EncodesInRow.Statement (.encrypt n plain) := by
  refine ⟨⟨.encrypt, 0xF0FFF000, 0x20000000⟩, by decide, rfl, covers_formatC fun j hj => ?_⟩
  interval_cases j <;> simp

theorem EncodesInRow.decrypt (n : Index) (cipher : Block) : EncodesInRow.Statement (.decrypt n cipher) := by
  refine ⟨⟨.decrypt, 0xF0FFF000, 0x30000000⟩, by decide, rfl, covers_formatC fun j hj => ?_⟩
  interval_cases j <;> simp

theorem EncodesInRow.wrkey (idx : Index) (key : RoundKey) : EncodesInRow.Statement (.wrkey idx key) := by
  refine ⟨⟨.wrkey, 0xF0FFFF00, 0x40000000⟩, by decide, rfl, covers_formatC fun j hj => ?_⟩
  interval_cases j <;> simp

theorem EncodesInRow.rdkey (idx : Index) : EncodesInRow.Statement (.rdkey idx) := by
  refine ⟨⟨.rdkey, 0xF0FFFFFF, 0x50000000⟩, by decide, rfl, covers_formatC fun j hj => ?_⟩
  interval_cases j <;> simp

theorem EncodesInRow.expand (half : HalfBlock) : EncodesInRow.Statement (.expand half) := by
  refine ⟨⟨.expand, 0xFFFFFFC0, 0x60000000⟩, by decide, rfl, covers_formatC fun j hj => ?_⟩
  interval_cases j <;> simp

theorem EncodesInRow.subst (byte : BitVec 8) : EncodesInRow.Statement (.subst byte) := by
  refine ⟨⟨.subst, 0xFFFFFF00, 0x70000000⟩, by decide, rfl, covers_formatC fun j hj => ?_⟩
  interval_cases j <;> simp

theorem EncodesInRow.roundf (idx : Index) (half : HalfBlock) : EncodesInRow.Statement (.roundf idx half) := by
  refine ⟨⟨.roundf, 0xF0FFFFC0, 0x80000000⟩, by decide, rfl, covers_formatC fun j hj => ?_⟩
  interval_cases j <;> simp

theorem EncodesInRow.round (idx : Index) (block : Block) : EncodesInRow.Statement (.round idx block) := by
  refine ⟨⟨.round, 0xF0FFF000, 0x90000000⟩, by decide, rfl, covers_formatC fun j hj => ?_⟩
  interval_cases j <;> simp

theorem EncodesInRow.fperm (block : Block) : EncodesInRow.Statement (.fperm block) := by
  refine ⟨⟨.fperm, 0xFFFFF000, 0xA0000000⟩, by decide, rfl, covers_formatC fun j hj => ?_⟩
  interval_cases j <;> simp

/-- Every term of `Instr` has operands that fit their fields (R62). -/
theorem instr_wellFormed (i : Instr) : i.wellFormed = true := by
  cases i <;>
    simp [Instr.wellFormed, Source.wellFormed, Instr.mnemonic, Instr.operands, Mnemonic.operandWidths, operandsFit,
      fitsField] <;> omega

end Sys2Proof.Laws
end

