-- ==== Sys2Proof/Laws/Runs.lean ====
section
/-! SUPPORT. Runs of several edges, one edge at a time, and the outputs bit by bit. -/

namespace Sys2Proof.Machine

@[simp] theorem edges_zero (s : State) : edges 0 s = .next s := rfl

theorem edges_succ {k : Nat} {s t : State} (h : step s = .next t) : edges (k + 1) s = edges k t := by
  simp [edges, runEdges, h]

@[simp] theorem refEdges_zero (s : State) : refEdges 0 s = .next s := rfl

theorem refEdges_succ {k : Nat} {s t : State} (h : refStep s = .next t) : refEdges (k + 1) s = refEdges k t := by
  simp [refEdges, runEdges, h]

/-- The host's run of the machine is the run the statements are about. -/
theorem edges_eq_run (k : Nat) (s : State) : edges k s = Sys2Proof.core.run k s := by
  induction k generalizing s with
  | zero => rfl
  | succ k ih =>
    cases h : step s with
    | next t => rw [edges_succ h, ih]; simp [Host.Core.run, core, h]
    | fault e => simp [edges, runEdges, Host.Core.run, core, h]
    | refused e => simp [edges, runEdges, Host.Core.run, core, h]

theorem acceptedWords_succ {k : Nat} {s t : State} (h : step s = .next t) :
    acceptedWords (k + 1) s = acceptedNow s ++ acceptedWords k t := by
  simp [acceptedWords, h]

theorem serialRun_cons {w : Word} {ws : List Word} {s t : State} (h : runWord w s = .next t) :
    serialRun (w :: ws) s = serialRun ws t := by
  simp [serialRun, h]

theorem noResetFor_succ {k : Nat} {s : State} (h : NoResetFor (k + 1) s) :
    s.pins.rst = false ∧ ∀ t : State, t.inputs = s.inputs.tail → NoResetFor k t := by
  unfold NoResetFor State.pins at *
  cases hi : s.inputs with
  | nil => exact ⟨rfl, fun t ht => by simp [ht]⟩
  | cons p ps =>
    rw [hi] at h
    refine ⟨h p (by simp), fun t ht q hq => h q ?_⟩
    rw [ht] at hq
    simp only [List.take_succ_cons, List.mem_cons]
    exact .inr hq

/-- The observable parts of two states are equal when the outputs and the valid round keys are. -/
theorem visible_eq_iff (s t : State) :
    s.visible = t.visible ↔
      s.busy = t.busy ∧ s.done = t.done ∧ s.err = t.err ∧ s.rkv = t.rkv ∧ s.result = t.result ∧
        ∀ j : Fin 9, keyValid s j.val = true → s.rk[j] = t.rk[j] := by
  simp only [State.visible, Visible.mk.injEq]
  refine and_congr_right fun _ => and_congr_right fun _ => and_congr_right fun _ => ?_
  refine and_congr_right fun hv => and_congr_right fun _ => ?_
  have hk : ∀ j, keyValid t j = keyValid s j := fun j => by simp [keyValid, hv]
  constructor
  · intro h j hj
    have := congrArg (·[j]) h
    simpa [hk, hj] using this
  · intro h
    ext1 j hj
    have := h ⟨j, hj⟩
    simp only [Vector.getElem_ofFn, hk]
    split
    · rw [this ‹_›]
    · rfl

/-- The status word bit by bit (R21). -/
theorem statusOutput_getLsbD (s : State) (j : Nat) :
    (statusOutput s).getLsbD j =
      if j = 0 then s.busy
      else if j = 1 then s.done
      else if j < 5 then s.err.getLsbD (j - 2)
      else if j < 16 then false
      else if j < 25 then (rkvOutput s).getLsbD (j - 16)
      else false := by
  show (0#7 ++ rkvOutput s ++ 0#11 ++ s.err ++ BitVec.ofBool s.done ++ BitVec.ofBool s.busy :
    BitVec (7 + 9 + 11 + 3 + 1 + 1)).getLsbD j = _
  simp only [BitVec.getLsbD_append, BitVec.getLsbD_zero, Nat.sub_sub, BitVec.getLsbD_ofBool]
  by_cases h0 : j = 0
  · simp [h0]
  by_cases h1 : j = 1
  · simp [h1]
  by_cases h5 : j < 5
  · simp [h0, h1, h5, show ¬ j - 1 < 1 by omega, show j - 2 < 3 by omega]
  by_cases h16 : j < 16
  · simp [h0, h1, h5, h16, show ¬ j - 1 < 1 by omega, show ¬ j - 2 < 3 by omega, show j - 5 < 11 by omega]
  by_cases h25 : j < 25
  · simp [h0, h1, h5, h16, h25, show ¬ j - 1 < 1 by omega, show ¬ j - 2 < 3 by omega,
      show ¬ j - 5 < 11 by omega, show j - 16 < 9 by omega]
  · simp [h0, h1, h5, h16, h25, show ¬ j - 1 < 1 by omega, show ¬ j - 2 < 3 by omega,
      show ¬ j - 5 < 11 by omega, show ¬ j - 16 < 9 by omega]

end Sys2Proof.Machine
end

