-- ==== Sys2Proof/Tests/Slice0.lean ====
section
/-! SUPPORT. The model's own tests. Expected values are the spec's: the examples of the command rules and the tables of
95_test_vectors.md, whose section each test names. -/

namespace Sys2Proof.Tests

open Sys2Proof.Machine

/-! ### Ill-formed lines are refused (30_encoding.md R62, R63) -/

theorem test_refuses_wide_count : (Source.command .keygen [16, 0]).wellFormed = false := by decide
theorem test_refuses_wide_master_key : (Source.command .keygen [9, 0x200]).wellFormed = false := by decide
theorem test_refuses_wide_block : (Source.command .encrypt [4, 0x1000]).wellFormed = false := by decide
theorem test_refuses_wide_round_key : (Source.command .wrkey [0, 0x100]).wellFormed = false := by decide
theorem test_refuses_wide_half : (Source.command .expand [0x40]).wellFormed = false := by decide
theorem test_refuses_missing_operand : (Source.command .rdkey []).wellFormed = false := by decide
theorem test_refuses_extra_operand : (Source.command .nop [0]).wellFormed = false := by decide
theorem test_refuses_empty_loadkeys : (Source.loadKeys []).wellFormed = false := by decide
theorem test_refuses_ten_keys : (Source.loadKeys [0, 1, 2, 3, 4, 5, 6, 7, 8, 9]).wellFormed = false := by decide
theorem test_refuses_wide_loadkeys_key : (Source.loadKeys [0x100]).wellFormed = false := by decide
theorem test_refuses_wide_word : (Source.word 0x100000000).wellFormed = false := by decide
theorem test_accepts_out_of_range_count : (Source.command .keygen [10, 0x1FF]).wellFormed = true := by decide

/-! ### Words written out bit by bit from the encodings (opcode_table.json; 95 section 2.8) -/

theorem test_decode_nop : decode 0b0000_0000_000000000000_000000000000 = some .nop := by decide
theorem test_decode_keygen : decode 0b0001_0100_000000000000_000_011001010 = some (.keygen 4 0b011001010) := by decide
theorem test_decode_encrypt : decode 0b0010_1111_000000000000_111111111111 = some (.encrypt 15 0xFFF) := by decide
theorem test_decode_decrypt : decode 0b0011_0100_000000000000_010110001100 = some (.decrypt 4 0x58C) := by decide
theorem test_decode_wrkey : decode 0b0100_1000_000000000000_0000_11111111 = some (.wrkey 8 0xFF) := by decide
theorem test_decode_rdkey : decode 0b0101_0010_000000000000_000000000000 = some (.rdkey 2) := by decide
theorem test_decode_expand : decode 0b0110_0000_000000000000_000000_100110 = some (.expand 0x26) := by decide
theorem test_decode_subst : decode 0b0111_0000_000000000000_0000_11001111 = some (.subst 0xCF) := by decide
theorem test_decode_roundf : decode 0b1000_0000_000000000000_000000_100110 = some (.roundf 0 0x26) := by decide
theorem test_decode_round : decode 0b1001_1111_000000000000_111111111111 = some (.round 15 0xFFF) := by decide
theorem test_decode_fperm : decode 0b1010_0000_000000000000_111111111111 = some (.fperm 0xFFF) := by decide

/-- The illegal words of 95 section 2.8. -/
theorem test_decode_illegal :
    ([0x00000001, 0x01000000, 0x00001000, 0x14000200, 0x40000100, 0x50000001, 0x60000040, 0x6100003F, 0x70000100,
      0x800000C0, 0x8C000040, 0xA1000000, 0xB0000000, 0xF0000000, 0x20800000].map decode).all (· == none) = true := by
  decide

theorem test_table_word : decodeTableWord 32 0x140000CA = some (.keygen 4 0x0CA) := by decide

/-! ### The assembler (R61 to R63) -/

theorem test_assemble_text :
    assembleText "start: LOADKEYS 0x65, 0xCA ; two keys\n ROUND 0, 0x726\n.word 0xB0000000\n\nKEYGEN 4, 0b011001010" =
      some [0x40000065, 0x410000CA, 0x90000726, 0xB0000000, 0x140000CA] := by decide +kernel

theorem test_assemble_refuses_wide_literal : assembleText "KEYGEN 4, 512" = none := by decide

/-! ### One step of each command -/

/-- The engine after `KEYGEN 4, 0x0CA` (41_key_schedule.md R80, example). -/
def keyed : State := { State.reset with rk := #v[0x65, 0xCA, 0x94, 0x29, 0, 0, 0, 0, 0], rkv := 0b000001111 }

/-- Status, `RESULT` after the step that runs a word. -/
def ran (w : Nat) (s : State) : Option (BitVec 32 × Block) :=
  match step (s.withFetchWord 32 w) with
  | .next t => some (statusOutput t, t.result)
  | .fault _ => none
  | .refused _ => none

/-- The entry of the round-key file after the step that runs a word. -/
def keyAfter (w : Nat) (s : State) (i : Fin 9) : Option RoundKey :=
  match step (s.withFetchWord 32 w) with
  | .next t => some t.rk[i]
  | .fault _ => none
  | .refused _ => none

/-- R90: `NOP` clears `ERR`. -/
theorem test_nop : ran 0x00000000 { keyed with err := 1 } = some (0x000F0002, 0) := by decide
/-- 95 section 2.6: round key 3 of 0x0CA is 0x29. -/
theorem test_keygen : keyAfter 0x140000CA State.reset 3 = some 0x29 := by decide
/-- 95 section 2.9: the status after `ROUNDS_RANGE` from `KEYGEN`. -/
theorem test_keygen_rounds_range : ran 0x1A0000CA keyed = some (0x00000006, 0) := by decide
/-- 95 section 2.7. -/
theorem test_encrypt : ran 0x24000726 keyed = some (0x000F0002, 0x58C) := by decide
/-- Program P6: `ENCRYPT 3` with two valid keys is `KEY_INVALID`. -/
theorem test_encrypt_key_invalid : ran 0x23000726 { keyed with rkv := 3 } = some (0x0003000A, 0) := by decide
/-- 95 section 2.7. -/
theorem test_decrypt : ran 0x3400058C keyed = some (0x000F0002, 0x726) := by decide
/-- 95 section 2.7: `DECRYPT 2` is not `ENCRYPT 2`. -/
theorem test_decrypt_order : ran 0x32000726 keyed = some (0x000F0002, 0x3E0) := by decide
/-- Program P3. -/
theorem test_wrkey : ran 0x4200005A State.reset = some (0x00040002, 0) := by decide
/-- 95 section 2.6: `WRKEY 9` writes nothing. -/
theorem test_wrkey_index_range : ran 0x49000000 keyed = some (0x000F000E, 0) := by decide
/-- 95 section 2.6. -/
theorem test_rdkey : ran 0x52000000 keyed = some (0x000F0002, 0x094) := by decide
/-- 95 section 2.6: entry 4 is not valid. -/
theorem test_rdkey_key_invalid : ran 0x54000000 keyed = some (0x000F000A, 0) := by decide
/-- 95 section 2.1. -/
theorem test_expand : ran 0x60000026 keyed = some (0x000F0002, 0x0AA) := by decide
/-- 95 section 2.2. -/
theorem test_subst : ran 0x700000CF keyed = some (0x000F0002, 0x004) := by decide
/-- 95 section 2.3. -/
theorem test_roundf : ran 0x80000026 keyed = some (0x000F0002, 0x004) := by decide
/-- 95 section 2.3: `ILLEGAL_CMD` before `INDEX_RANGE` (R97). -/
theorem test_roundf_priority : ran 0x8C000040 keyed = some (0x000F0012, 0) := by decide
/-- 95 section 2.4. -/
theorem test_round : ran 0x90000726 keyed = some (0x000F0002, 0x998) := by decide
/-- 95 section 2.4: an index out of range. -/
theorem test_round_index_range : ran 0x9F000FFF keyed = some (0x000F000E, 0) := by decide
/-- 95 section 2.5. -/
theorem test_fperm : ran 0xA0000ABC keyed = some (0x000F0002, 0xF2A) := by decide

/-- 95 section 2.6: round key 8 under both readings. -/
theorem test_key_eight : keySched false 0x1A3 8 = 0xA8 ∧ keySched true 0x1A3 8 = 0xE8 := by decide
/-- 95 section 2.6, the row of 0x155. -/
theorem test_schedule_row :
    (List.range 9).map (keySched false 0x155) = [0xAA, 0x55, 0xAB, 0x56, 0xAD, 0x5A, 0xB5, 0x6A, 0x95] := by decide

/-! ### Edges -/

/-- R39: acceptance. -/
theorem test_accept : (match step { keyed with inputs := [⟨false, true, 0x24000726⟩] } with
    | .next t => t.busy && !t.done && t.cmd == 0x24000726
    | _ => false) = true := by decide
/-- R102: reset wins at a completing edge. -/
theorem test_reset_wins : (match step { keyed with busy := true, wait := 1, inputs := [⟨true, true, 0⟩] } with
    | .next t => statusOutput t == 0 && t.result == 0
    | _ => false) = true := by decide
/-- R119: the reference engine runs `DECRYPT 4` in 5 edges after acceptance. -/
theorem test_reference_decrypt : (match refEdges 6 { keyed with inputs := [⟨false, true, 0x3400058C⟩] } with
    | .next t => !t.busy && t.result == 0x726
    | _ => false) = true := by decide

/-! ### Witnesses: concrete states and operands that meet the hypotheses of a statement, each clause at its bounds

A theorem is named after its statement. -/

/-- `keyed` with a host that drives these ports. -/
def driven (ps : List PortSample) : State := { keyed with inputs := ps }

/-- `keyed` with the word in flight and its completing edge `wait` edges away. -/
def flying (w : Word) (wait : Nat) (ps : List PortSample) : State :=
  { keyed with busy := true, cmd := w, wait := wait, inputs := ps }

/-- Nine valid round keys. -/
def full : State := { keyed with rkv := 0x1FF }

theorem test_witness_inv_flying : (flying 0x24000726 1 []).Inv :=
  ⟨by decide, by decide, by decide, fun _ => ⟨by decide, Nat.succ_le_succ (Nat.zero_le _)⟩, by decide⟩

theorem test_witness_inv_after_error : ({ keyed with done := true, err := 4 } : State).Inv :=
  ⟨by decide, by decide, by decide, fun h => absurd h (by decide), by decide⟩

theorem test_witness_EveryEdgeKeepsInv :
    (flying 0x24000726 1 []).Inv ∧
      (match step (flying 0x24000726 1 []) with | .next t => t.err == 0 && !t.busy | _ => false) = true :=
  ⟨test_witness_inv_flying, by decide⟩

theorem test_witness_DecodeOfEncodeIsTheCommand :
    (Instr.keygen 0xF 0x1FF).wellFormed = true ∧ Instr.nop.wellFormed = true ∧
      (Instr.encrypt 0xF 0xFFF).wellFormed = true ∧ (Instr.decrypt 0xF 0xFFF).wellFormed = true ∧
      (Instr.wrkey 0xF 0xFF).wellFormed = true ∧ (Instr.rdkey 0xF).wellFormed = true ∧
      (Instr.expand 0x3F).wellFormed = true ∧ (Instr.subst 0xFF).wellFormed = true ∧
      (Instr.roundf 0xF 0x3F).wellFormed = true ∧ (Instr.round 0xF 0xFFF).wellFormed = true ∧
      (Instr.fperm 0xFFF).wellFormed = true := by decide

theorem test_witness_DecodeAgreesWithTheOpcodeTable :
    decode 0xAFFF = none ∧ decode 0xA0000FFF = some (.fperm 0xFFF) ∧
      (∃ r ∈ opcodeTable, r.mnemonic = .fperm ∧ r.covers 0xA0000FFF) ∧
      (∀ r ∈ opcodeTable, ¬ r.covers 0xB0000000) ∧ ∀ r ∈ opcodeTable, ¬ r.covers 0x00000001 := by decide

theorem test_witness_TheOneNopWord :
    (opField 0x00000001 = 0 ∧ (0x00000001 : Word) ≠ 0) ∧ (opField 0x0FFFFFFF = 0 ∧ (0x0FFFFFFF : Word) ≠ 0) ∧
      (0x10000000 : Word) ≠ 0 ∧ (0xFFFFFFFF : Word) ≠ 0 := by decide

theorem test_witness_ReservedOpcodesRaiseIllegal :
    0xB ≤ (opField 0xB0000000).toNat ∧ 0xB ≤ (opField 0xFFFFFFFF).toNat := by decide

theorem test_witness_MustBeZeroBitsRaiseIllegal :
    zField 0x20001000 ≠ 0 ∧ zField 0x20800000 ≠ 0 ∧
      (opField 0x01000000 = 0x0 ∧ (0x01000000 : Word).extractLsb' 24 4 ≠ 0) ∧
      (opField 0x00000800 = 0x0 ∧ (0x00000800 : Word).extractLsb' 0 12 ≠ 0) ∧
      (opField 0x10000200 = 0x1 ∧ (0x10000200 : Word).extractLsb' 9 3 ≠ 0) ∧
      (opField 0x40000800 = 0x4 ∧ (0x40000800 : Word).extractLsb' 8 4 ≠ 0) ∧
      (opField 0x50000001 = 0x5 ∧ (0x50000001 : Word).extractLsb' 0 12 ≠ 0) ∧
      (opField 0x68000000 = 0x6 ∧ (0x68000000 : Word).extractLsb' 24 4 ≠ 0) ∧
      (opField 0x60000040 = 0x6 ∧ (0x60000040 : Word).extractLsb' 6 6 ≠ 0) ∧
      (opField 0x71000000 = 0x7 ∧ (0x71000000 : Word).extractLsb' 24 4 ≠ 0) ∧
      (opField 0x70000100 = 0x7 ∧ (0x70000100 : Word).extractLsb' 8 4 ≠ 0) ∧
      (opField 0x80000040 = 0x8 ∧ (0x80000040 : Word).extractLsb' 6 6 ≠ 0) ∧
      (opField 0xA1000000 = 0xA ∧ (0xA1000000 : Word).extractLsb' 24 4 ≠ 0) ∧
      zField 0x2F000FFF = 0 ∧ opField 0x2F000FFF = 0x2 ∧ zField 0x30000000 = 0 ∧ opField 0x30000000 = 0x3 ∧
      zField 0x9F000FFF = 0 ∧ opField 0x9F000FFF = 0x9 := by decide

theorem test_witness_EncoderWritesTheSyntaxTable :
    ([] : List Nat).length ≠ (Mnemonic.operandWidths .rdkey).length ∧
      2 ^ (Mnemonic.operandWidths .keygen)[1] ≤ [15, 0x200][1] ∧
      2 ^ (Mnemonic.operandWidths .rdkey)[0] ≤ [16][0] := by decide

theorem test_witness_LoadKeysWritesTheSequence :
    (1 ≤ (List.replicate 1 (0xFF : RoundKey)).length ∧ (List.replicate 9 (0 : RoundKey)).length ≤ 9) ∧
      (List.replicate 9 (0 : RoundKey)).length = 9 ∧ ([] : List Nat).length = 0 ∧
      9 < (List.replicate 10 0).length := by decide

theorem test_witness_ExpandIsTheInjectiveBitMap : expand 0x2A = expand 0x2A := rfl

theorem test_witness_SignednessShowsOnlyInKeyEightBitSix :
    (7 : Fin 9) ≤ 7 ∧ ¬ ((8 : Fin 9) = 8 ∧ (7 : Fin 8) = 6) ∧ ¬ ((7 : Fin 9) = 8 ∧ (6 : Fin 8) = 6) := by decide

theorem test_witness_KeyScheduleLosesNoBit : (1 : Fin 9) ≠ 0 ∧ (8 : Fin 9) ≠ 0 := by decide

theorem test_witness_NopCompletesAndDoesNothingElse :
    opField 0x00000001 = 0 ∧ (0x00000001 : Word) ≠ 0 ∧ opField 0x00800000 = 0 ∧ (0x00800000 : Word) ≠ 0 := by decide

theorem test_witness_KeygenLoadsTheSchedule :
    (0x0 : Index).toNat ≤ 9 ∧ (0x9 : Index).toNat ≤ 9 ∧ 9 < (0xA : Index).toNat ∧ 9 < (0xF : Index).toNat ∧
      (opField 0x1F000200 = 0x1 ∧ (0x1F000200 : Word).extractLsb' 9 3 ≠ 0) ∧
      opField 0x10001000 = 0x1 ∧ zField 0x10001000 ≠ 0 := by decide

theorem test_witness_WrkeyWritesOneEntry :
    9 ≤ (0x9 : Index).toNat ∧ 9 ≤ (0xF : Index).toNat ∧ (0 : Fin 9) ≠ 8 ∧
      (opField 0x40000100 = 0x4 ∧ (0x40000100 : Word).extractLsb' 8 4 ≠ 0) ∧
      opField 0x40800000 = 0x4 ∧ zField 0x40800000 ≠ 0 := by decide

theorem test_witness_RdkeyCopiesOneEntry :
    keyValid keyed 0 = true ∧ keyValid keyed 3 = true ∧ keyValid keyed 4 = false ∧ keyValid keyed 8 = false ∧
      keyValid full 8 = true ∧ 9 ≤ (0x9 : Index).toNat ∧
      (opField 0x50000001 = 0x5 ∧ dField 0x50000001 ≠ 0) ∧ (opField 0x50001000 = 0x5 ∧ zField 0x50001000 ≠ 0) ∧
      (0x8 : Index).toNat ≤ 9 ∧ (0x8 : Index).toNat ≤ (8 : Fin 9).val ∧
      (0x0 : Index).toNat ≤ (0 : Fin 9).val := by decide

theorem test_witness_ExpandCommandReturnsTheExpansion :
    (opField 0x61000000 = 0x6 ∧ nField 0x61000000 ≠ 0) ∧
      (opField 0x60000040 = 0x6 ∧ (0x60000040 : Word).extractLsb' 6 6 ≠ 0) ∧
      opField 0x60001000 = 0x6 ∧ zField 0x60001000 ≠ 0 := by decide

theorem test_witness_SubstCommandLooksUpBothTables :
    (opField 0x71000000 = 0x7 ∧ nField 0x71000000 ≠ 0) ∧
      (opField 0x70000100 = 0x7 ∧ (0x70000100 : Word).extractLsb' 8 4 ≠ 0) ∧
      opField 0x70001000 = 0x7 ∧ zField 0x70001000 ≠ 0 := by decide

theorem test_witness_RoundfCommandAppliesTheRoundFunction :
    keyValid keyed 0 = true ∧ keyed.rk[0] = 0x65 ∧ keyValid full 8 = true ∧ keyValid keyed 4 = false ∧
      9 ≤ (0x9 : Index).toNat ∧ (opField 0x80000040 = 0x8 ∧ (0x80000040 : Word).extractLsb' 6 6 ≠ 0) ∧
      opField 0x80800000 = 0x8 ∧ zField 0x80800000 ≠ 0 := by decide

theorem test_witness_RoundCommandAppliesOneRound :
    keyValid keyed 0 = true ∧ keyed.rk[0] = 0x65 ∧ keyValid full 8 = true ∧ keyValid keyed 4 = false ∧
      9 ≤ (0x9 : Index).toNat ∧ opField 0x90001000 = 0x9 ∧ zField 0x90001000 ≠ 0 := by decide

theorem test_witness_FpermCommandSwapsTheHalves :
    (0x041 : Block).extractLsb' 0 6 = (0x041 : Block).extractLsb' 6 6 ∧
      (opField 0xA1000000 = 0xA ∧ nField 0xA1000000 ≠ 0) ∧ opField 0xA0001000 = 0xA ∧ zField 0xA0001000 ≠ 0 := by decide

theorem test_witness_EncryptCommandRunsTheRounds :
    ((0x4 : Index).toNat ≤ 9 ∧ ∀ i < (0x4 : Index).toNat, keyValid keyed i = true) ∧
      ((0x9 : Index).toNat ≤ 9 ∧ ∀ i < (0x9 : Index).toNat, keyValid full i = true) ∧
      (∀ i < (0x0 : Index).toNat, keyValid State.reset i = true) ∧ 9 < (0xA : Index).toNat ∧
      ((0x5 : Index).toNat ≤ 9 ∧ 4 < (0x5 : Index).toNat ∧ keyValid keyed 4 = false) ∧
      (opField 0x20800000 = 0x2 ∧ zField 0x20800000 ≠ 0) ∧
      keyValid { keyed with rk := keyed.rk.set 0 0 } 0 = true ∧ ({ keyed with rk := keyed.rk.set 0 0 } : State).rk[0] = 0 := by
  decide

theorem test_witness_DecryptCommandRunsTheRoundsInReverse :
    ((0x4 : Index).toNat ≤ 9 ∧ ∀ i < (0x4 : Index).toNat, keyValid keyed i = true) ∧
      (∀ i < (0x9 : Index).toNat, keyValid full i = true) ∧
      (8 : Fin 9).val + (0 : Fin 9).val + 1 = (0x9 : Index).toNat ∧ 9 < (0xA : Index).toNat ∧
      ((0x5 : Index).toNat ≤ 9 ∧ 4 < (0x5 : Index).toNat ∧ keyValid keyed 4 = false) ∧
      (opField 0x30800000 = 0x3 ∧ zField 0x30800000 ≠ 0) ∧ keyValid keyed 0 = true ∧
      (match exec (.encrypt 0x4 0x726) keyed with | .next t => t.result == 0x58C | _ => false) = true ∧
      ∀ i : Fin 9, i.val < (0x4 : Index).toNat → full.rk[i] = keyed.rk[i] ∧ keyValid full i.val = true := by decide

theorem test_witness_DecryptUndoesEncrypt :
    ((0x0 : Index).toNat ≤ 9 ∧ ∀ i < (0x0 : Index).toNat, keyValid State.reset i = true) ∧
      (0x9 : Index).toNat ≤ 9 ∧ ∀ i < (0x9 : Index).toNat, keyValid full i = true := by decide

theorem test_witness_KeygenThenEncryptIsTheCipher : (0x0 : Index).toNat ≤ 9 ∧ (0x9 : Index).toNat ≤ 9 := by decide

theorem test_witness_ErrorsChangeNothingElse :
    (match runWord 0xB0000000 keyed with | .next t => t.err != 0 | _ => false) = true ∧
      (match runWord 0x1A0000CA keyed with | .next t => t.err != 0 && t.rkv == 0 | _ => false) = true ∧
      decode 0x1A0000CA = some (.keygen 0xA 0x0CA) ∧ 9 < (0xA : Index).toNat := by decide

theorem test_witness_ErrIsNotSticky :
    ({ driven [⟨false, true, 0xFFFFFFFF⟩] with done := true, err := 4 } : State).pins.rst = false ∧
      ({ driven [⟨false, true, 0xFFFFFFFF⟩] with done := true, err := 4 } : State).busy = false ∧
      ({ driven [⟨false, true, 0xFFFFFFFF⟩] with done := true, err := 4 } : State).pins.cmdValid = true := by decide

theorem test_witness_OnlyKeyCommandsAndResetWriteKeys :
    (match step (flying 0x4200005A 1 []) with | .next t => t.rk != keyed.rk | _ => false) = true ∧
      (match step (flying 0x1A0000CA 1 []) with | .next t => t.rkv != keyed.rkv | _ => false) = true ∧
      (match step (driven [⟨true, false, 0⟩]) with | .next t => t.rkv != keyed.rkv | _ => false) = true := by decide

theorem test_witness_OnlyValueCommandsAndResetWriteResult :
    (match step (flying 0xA0000FFF 1 []) with | .next t => t.result != keyed.result | _ => false) = true ∧
      (match step ({ driven [⟨true, false, 0⟩] with result := 0xABC }) with
        | .next t => t.result != 0xABC
        | _ => false) = true := by decide

theorem test_witness_DriversNeedLoadedKeys :
    State.reset.rkv = 0 ∧ (1 ≤ 9 ∧ 9 ≤ 9) ∧
      (Instr.encrypt 0x9 0xFFF = .encrypt (BitVec.ofNat 4 9) 0xFFF) ∧
      (Instr.round 0x8 0xFFF = .round (BitVec.ofNat 4 (9 - 1)) 0xFFF) ∧
      (Instr.rdkey 0x0 = .rdkey (BitVec.ofNat 4 (1 - 1))) := by decide

theorem test_witness_StepRunsTheDecodedCommand :
    (flying 0x24000726 1 []).pins.rst = false ∧ (flying 0x24000726 1 []).busy = true ∧
      (flying 0x24000726 1 []).wait ≤ 1 ∧ (Instr.encrypt 4 0x726).wellFormed = true ∧
      decode (flying 0x24000726 1 []).cmd = some (.encrypt 4 0x726) ∧
      decode (flying 0xB0000000 1 []).cmd = none ∧
      0xAFFF < 2 ^ 32 ∧ 0xA0000FFF < 2 ^ 32 ∧ decode (BitVec.ofNat 32 0xA0000FFF) = some (.fperm 0xFFF) := by decide

theorem test_witness_AcceptanceLatchesTheWord :
    ((driven [⟨false, true, 0xFFFFFFFF⟩]).pins.rst = false ∧ (driven [⟨false, true, 0xFFFFFFFF⟩]).busy = false ∧
        (driven [⟨false, true, 0xFFFFFFFF⟩]).pins.cmdValid = true) ∧
      ¬ ((flying 0 2 []).pins.rst = false ∧ (flying 0 2 []).busy = false ∧ (flying 0 2 []).pins.cmdValid = true) ∧
      (match step (flying 0 2 []) with | .next t => t.busy | _ => false) = true := by decide

theorem test_witness_WordsNotAcceptedHaveNoEffect : (flying 0 2 []).busy = true := by decide

theorem test_witness_IdleEdgeChangesNothing :
    (driven [⟨false, false, 0xFFFFFFFF⟩]).busy = false ∧ (driven [⟨false, false, 0xFFFFFFFF⟩]).pins.rst = false ∧
      (driven [⟨false, false, 0xFFFFFFFF⟩]).pins.cmdValid = false := by decide

theorem test_witness_StatusWordLayout :
    keyed.busy = false ∧ (flying 0x24000726 1 []).Inv ∧ (flying 0x24000726 1 []).busy = true :=
  ⟨rfl, test_witness_inv_flying, rfl⟩

theorem test_witness_BusyEdgesCommitNothing :
    (flying 0xA0000FFF 2 []).busy = true ∧ (flying 0xA0000FFF 2 []).pins.rst = false ∧
      1 < (flying 0xA0000FFF 2 []).wait ∧
      (match step (flying 0xA0000FFF 1 []) with | .next t => !t.busy | _ => false) = true ∧
      (match step (driven [⟨false, true, 0⟩]) with | .next t => t.busy | _ => false) = true := by decide

theorem test_witness_ResetEdgeGivesTheResetState :
    (1 ≤ 2 ∧ 2 ≤ (driven [⟨true, true, 0⟩, ⟨true, false, 0⟩]).inputs.length) ∧
      (∀ p ∈ (driven [⟨true, true, 0⟩, ⟨true, false, 0⟩]).inputs.take 2, p.rst = true) ∧
      (driven [⟨true, true, 0⟩]).pins.rst = true := by decide

theorem test_witness_ResetAbortsTheCommandInFlight :
    (flying 0x24000726 1 [⟨true, false, 0⟩]).busy = true ∧ (flying 0x24000726 1 [⟨true, false, 0⟩]).pins.rst = true ∧
      (match step (flying 0x24000726 2 []) with | .next t => t.busy | _ => false) = true := by decide

theorem test_witness_AfterResetTheFirstValidWordIsAccepted :
    (⟨true, true, 0⟩ : PortSample).rst = true ∧
      (∀ r ∈ [PortSample.mk false false 0xFFFFFFFF, ⟨false, false, 0x24000726⟩], r.rst = false ∧ r.cmdValid = false) ∧
      (∀ r ∈ ([] : List PortSample), r.rst = false ∧ r.cmdValid = false) ∧
      (⟨false, true, 0x24000726⟩ : PortSample).rst = false ∧
      (⟨false, true, 0x24000726⟩ : PortSample).cmdValid = true := by decide

theorem test_witness_HeldWordIsAcceptedAgain :
    (flying 0 1 [⟨false, true, 0x24000726⟩, ⟨false, true, 0x24000726⟩]).busy = true ∧
      (flying 0 1 [⟨false, true, 0x24000726⟩, ⟨false, true, 0x24000726⟩]).wait ≤ 1 := by decide

/-- A host that presents one word and never resets. -/
theorem noResetFor_one_word (w : Word) (k : Nat) : NoResetFor k (driven [⟨false, true, w⟩]) := by
  intro p hp
  have := List.mem_of_mem_take hp
  simp [driven] at this
  simp [this]

theorem test_witness_AcceptedCommandCompletesAtItsLatency :
    (driven [⟨false, true, 0x24000726⟩]).busy = false ∧ (driven [⟨false, true, 0x24000726⟩]).pins.cmdValid = true ∧
      NoResetFor (Config.latency 0x24000726 0 + 1) (driven [⟨false, true, 0x24000726⟩]) ∧
      (flying 0x24000726 1 [⟨true, false, 0⟩]).pins.rst = true ∧
      (match step (flying 0x24000726 2 []) with | .next t => t.busy | _ => false) = true :=
  ⟨by decide, by decide, noResetFor_one_word _ _, by decide, by decide⟩

theorem test_witness_EveryCommandCompletesWithinLatMax :
    (flying 0x24000726 1 []).Inv ∧ (flying 0x24000726 1 []).busy = true ∧
      NoResetFor Config.latMax (flying 0x24000726 1 []) :=
  ⟨test_witness_inv_flying, by decide, fun p hp => by simp [flying] at hp⟩

/-- A `NOP` in flight under a silent host completes when its edges are over. -/
theorem nop_drains (n : Nat) : ∀ s : State, s.busy = true → s.cmd = 0 → s.inputs = [] → s.wait = n + 1 →
    ∃ t, edges (n + 1) s = .next t ∧ t.busy = false := by
  induction n with
  | zero =>
    intro s hb hc hi hw
    have h := step_of_completing (by simp [State.pins, hi, PortSample.idle]) hb (show s.wait ≤ 1 by omega)
    rw [hc] at h
    exact ⟨_, (edges_succ (h.trans rfl)).trans rfl, rfl⟩
  | succ n ih =>
    intro s hb hc hi hw
    have h := step_of_waiting (by simp [State.pins, hi, PortSample.idle]) hb (show 1 < s.wait by omega)
    rw [edges_succ h]
    exact ih _ (by simpa using hb) (by simpa using hc) (by simp [hi]) (by simp [hw])

/-- A whole acceptance and completion among the edges. -/
theorem test_witness_EngineIsTheSerialFoldOfItsWords :
    ∃ k t, 2 ≤ k ∧ (driven [⟨false, true, 0⟩]).busy = false ∧ NoResetFor k (driven [⟨false, true, 0⟩]) ∧
      edges k (driven [⟨false, true, 0⟩]) = .next t ∧ t.busy = false := by
  obtain ⟨t, ht, hb⟩ := nop_drains (Config.latencySeed 0 0 % Config.latMax)
    (accept 0 (driven [⟨false, true, 0⟩]).tick) rfl rfl rfl rfl
  exact ⟨_, t, by omega, rfl, noResetFor_one_word _ _, (edges_succ rfl).trans ht, hb⟩

/-- Two states that differ in an invalid round key and in the hidden registers. -/
theorem test_witness_HiddenContentsNeverShow :
    keyed.looksLike { keyed with rk := keyed.rk.set 8 0xFF, rc := 5, st := 0xABC, cmd := 0xFFFFFFFF } ∧
      keyed ≠ { keyed with rk := keyed.rk.set 8 0xFF, rc := 5, st := 0xABC, cmd := 0xFFFFFFFF } := by
  unfold State.looksLike
  decide

theorem test_witness_ReferenceEngineConforms :
    (driven [⟨false, true, 0x24000726⟩]).busy = false ∧ (driven [⟨false, true, 0x24000726⟩]).pins.cmdValid = true ∧
      NoResetFor (refLatency 0x24000726 (driven [⟨false, true, 0x24000726⟩]) + 1) (driven [⟨false, true, 0x24000726⟩]) :=
  ⟨by decide, by decide, noResetFor_one_word _ _⟩

theorem test_witness_EveryOtherKeyCommandSeesTheNewKeys :
    ((0x9 : Index).toNat ≤ 9 ∧ (8 : Fin 9).val < (0x9 : Index).toNat) ∧ (0x0 : Index).toNat ≤ 9 ∧
      (∀ j : Fin 9, j.val < (0x9 : Index).toNat → j ≠ 8 → keyValid full j.val = true) ∧
      ((0 : Fin 9).val < (0x1 : Index).toNat ∧
        ∀ j : Fin 9, j.val < (0x1 : Index).toNat → j ≠ 0 → keyValid State.reset j.val = true) ∧
      ∀ j : Fin 9, j.val < (0x5 : Index).toNat → j ≠ 4 → keyValid keyed j.val = true := by decide

end Sys2Proof.Tests
end

section
/-! The invariant of the engine, edge by edge (10_state.md R18 to R21, 70_reset_and_hazards.md R118), and the reset state
(R33). Every kind of edge keeps `State.Inv` for its own reason; `step_cases` puts them together. -/

namespace Sys2Proof.Machine

/-- Every command, legal or not, ends in a completion of some state: whatever else it does, it does before it completes
(R13, R41). -/
theorem runWord_eq_complete {w : Word} {s t : State} (h : runWord w s = .next t) : ∃ c u, t = complete c u := by
  cases hd : decode w with
  | none =>
    rw [runWord_of_illegal hd] at h
    cases h
    exact ⟨_, _, rfl⟩
  | some i =>
    rw [runWord_of_decode hd] at h
    obtain ⟨c, rfl⟩ | ⟨v, rfl⟩ | ⟨_, _, _, ⟨_, rfl⟩ | ⟨_, rfl⟩⟩ | ⟨_, _, _, _, _, rfl⟩ := exec_cases h <;>
      exact ⟨_, _, rfl⟩

theorem reset_inv : State.reset.Inv := by
  simp [State.Inv, State.reset]

theorem tick_inv {s : State} (h : s.Inv) : s.tick.Inv := h

theorem resetEdge_inv (s : State) : (resetEdge s).Inv := by
  simp [State.Inv]

/-- A completion restores the invariant from any state: this is where the codes of R94 bound `ERR`. -/
theorem complete_inv (c : Completion) (s : State) : (complete c s).Inv := by
  simp [State.Inv, code_toNat_le]

/-- An acceptance establishes the invariant: the drawn latency is in the range of R118. -/
theorem accept_inv (w : Word) (s : State) : (accept w s).Inv := by
  simp [State.Inv, latency_bounds]

/-- One edge fewer is left, and still at least one, since the completing edge has not come. -/
theorem busyEdge_inv {s : State} (h : s.Inv) (hb : s.busy = true) (hw : 1 < s.wait) : (busyEdge s).Inv := by
  obtain ⟨hcode, hflags, hdone, hflight, -⟩ := h
  obtain ⟨-, hmax⟩ := hflight hb
  refine ⟨hcode, hflags, hdone, fun _ => ⟨?_, ?_⟩, fun hidle => ?_⟩
  · rw [busyEdge_wait]; omega
  · rw [busyEdge_wait]; omega
  · rw [busyEdge_busy, hb] at hidle
    cases hidle

theorem step_inv {s t : State} (h : s.Inv) (hs : step s = .next t) : t.Inv := by
  obtain ⟨-, rfl⟩ | ⟨-, -, -, hrun⟩ | ⟨-, hb, hw, rfl⟩ | ⟨-, -, -, rfl⟩ | ⟨-, -, -, rfl⟩ := step_cases hs
  case inl => exact resetEdge_inv s.tick
  case inr.inl =>
    obtain ⟨c, u, rfl⟩ := runWord_eq_complete hrun
    exact complete_inv c u
  case inr.inr.inl => exact busyEdge_inv (tick_inv h) hb hw
  case inr.inr.inr.inl => exact accept_inv s.pins.cmd s.tick
  case inr.inr.inr.inr => exact tick_inv h

/-- Settles O3: each of the five kinds of edge keeps the invariant. -/
theorem everyEdgeKeepsInv : Obligations.EveryEdgeKeepsInv :=
  fun _ _ => step_inv

/-- Settles O2. -/
theorem resetStateSatisfiesInv : Obligations.ResetStateSatisfiesInv := reset_inv

/-- Settles O1: every register and every output evaluates at the reset state. -/
theorem resetStateHasTheSpecValues : Obligations.ResetStateHasTheSpecValues := by
  unfold Obligations.ResetStateHasTheSpecValues
  decide

/-- Settles O40. -/
theorem readyIsIdleAndNotReset : Obligations.ReadyIsIdleAndNotReset := by
  intro s
  simp [cmdReady]

end Sys2Proof.Machine
end

section
/-! Non-interference (10_state.md R23, R33; 93_implementation_defined.md items 8 and 10): every operation of the state
takes states that look alike to states that look alike, and every operand check reads the same in both. -/

namespace Sys2Proof.Machine

/-- `State.looksLike` field by field. -/
structure FieldsAlike (s t : State) : Prop where
  busy : s.busy = t.busy
  done : s.done = t.done
  err : s.err = t.err
  rkv : s.rkv = t.rkv
  result : s.result = t.result
  /-- only valid round keys are compared -/
  key : ∀ j : Fin 9, keyValid s j.val = true → s.rk[j] = t.rk[j]
  inputs : s.inputs = t.inputs
  draws : s.draws = t.draws
  /-- `CMD` and the edges left are compared only while a command is in flight -/
  flight : s.busy = true → s.cmd = t.cmd ∧ s.wait = t.wait

theorem looksLike_iff_fieldsAlike (s t : State) : s.looksLike t ↔ FieldsAlike s t := by
  unfold State.looksLike
  rw [visible_eq_iff]
  constructor
  · rintro ⟨⟨busy, done, err, rkv, result, key⟩, inputs, draws, flight⟩
    exact ⟨busy, done, err, rkv, result, key, inputs, draws, flight⟩
  · rintro ⟨busy, done, err, rkv, result, key, inputs, draws, flight⟩
    exact ⟨⟨busy, done, err, rkv, result, key⟩, inputs, draws, flight⟩

section Operations
variable {s t : State}

/-! ### What alike states have in common -/

theorem FieldsAlike.pins (h : FieldsAlike s t) : s.pins = t.pins := by
  simp [State.pins, h.inputs]

theorem FieldsAlike.keyValid (h : FieldsAlike s t) (i : Nat) : keyValid s i = keyValid t i := by
  simp [Machine.keyValid, h.rkv]

theorem FieldsAlike.keysValid (h : FieldsAlike s t) (n : Nat) : keysValid s n = keysValid t n := by
  simp [Machine.keysValid, funext h.keyValid]

theorem FieldsAlike.cmdReady (h : FieldsAlike s t) : cmdReady s = cmdReady t := by
  simp [Machine.cmdReady, h.busy, h.pins]

theorem FieldsAlike.statusOutput_of_idle (h : FieldsAlike s t) (hb : s.busy = false) :
    statusOutput s = statusOutput t := by
  have hb' : t.busy = false := h.busy ▸ hb
  simp [statusOutput, rkvOutput, hb, hb', h.done, h.err, h.rkv]

theorem FieldsAlike.resultOutput_of_idle (h : FieldsAlike s t) (hb : s.busy = false) :
    resultOutput s = resultOutput t := by
  have hb' : t.busy = false := h.busy ▸ hb
  simp [resultOutput, hb, hb', h.result]

/-! ### Operand checks read only what alike states share -/

/-- An index reads a round key only after the check of its valid bit (R97). -/
theorem FieldsAlike.keyOperand (h : FieldsAlike s t) (idx : Index) : keyOperand idx s = keyOperand idx t := by
  cases ht : Machine.keyOperand idx t with
  | ok k =>
    obtain ⟨i, hi, hv, rfl⟩ := (keyOperand_ok_iff idx t k).1 ht
    have hs := h.keyValid i ▸ hv
    exact (keyOperand_ok_iff idx s _).2 ⟨i, hi, hs, (h.key i hs).symm⟩
  | error e =>
    rw [keyOperand_error_iff] at ht ⊢
    rwa [h.keyValid]

/-- The round keys of `n` rounds are the same when the first `n` are valid. -/
theorem FieldsAlike.take_rk (h : FieldsAlike s t) {n : Nat} (hn : n ≤ 9) (hv : Machine.keysValid s n = true) :
    s.rk.toList.take n = t.rk.toList.take n := by
  rw [keysValid_iff] at hv
  apply List.ext_getElem
  · simp
  · intro i hi _
    have hin : i < n := by
      rw [List.length_take] at hi
      omega
    simpa using h.key ⟨i, by omega⟩ (hv i hin)

theorem FieldsAlike.roundKeys (h : FieldsAlike s t) (n : Index) : roundKeys n s = roundKeys n t := by
  cases ht : Machine.roundKeys n t with
  | ok ks =>
    obtain ⟨hn, hv, rfl⟩ := (roundKeys_ok_iff n t ks).1 ht
    have hs := h.keysValid n.toNat ▸ hv
    exact (roundKeys_ok_iff n s _).2 ⟨hn, hs, (h.take_rk hn hs).symm⟩
  | error e =>
    rw [roundKeys_error_iff] at ht ⊢
    rwa [h.keysValid]

/-! ### Operations keep states alike -/

theorem FieldsAlike.tick (h : FieldsAlike s t) : FieldsAlike s.tick t.tick :=
  { h with inputs := congrArg List.tail h.inputs }

theorem FieldsAlike.setResult (h : FieldsAlike s t) (v : Block) :
    FieldsAlike { s with result := v } { t with result := v } :=
  { h with result := rfl }

theorem FieldsAlike.writeKey (h : FieldsAlike s t) (i : Fin 9) (k : RoundKey) :
    FieldsAlike (writeKey i k s) (writeKey i k t) :=
  { h with
    rkv := by simp [h.rkv]
    key := by
      intro j hj
      by_cases hij : j = i
      · simp [hij]
      · have hne : j.val ≠ i.val := fun e => hij (Fin.ext e)
        have hv : Machine.keyValid s j.val = true := by simpa [hne] using hj
        simpa [Vector.getElem_set_ne, hne.symm] using h.key j hv }

theorem FieldsAlike.loadSchedule (h : FieldsAlike s t) (n : Nat) (key : MasterKey) :
    FieldsAlike (loadSchedule n key s) (loadSchedule n key t) :=
  { h with
    rkv := rfl
    key := fun j _ => by simp [h.draws] }

theorem FieldsAlike.invalidateKeys (h : FieldsAlike s t) : FieldsAlike (invalidateKeys s) (invalidateKeys t) :=
  { h with
    rkv := rfl
    key := fun j hj => by simp [Machine.keyValid] at hj }

theorem FieldsAlike.complete (h : FieldsAlike s t) (c : Completion) : FieldsAlike (complete c s) (complete c t) :=
  { h with
    busy := rfl
    done := rfl
    err := rfl
    draws := by simp [h.draws]
    flight := by simp }

theorem FieldsAlike.resetEdge (h : FieldsAlike s t) : FieldsAlike (resetEdge s) (resetEdge t) where
  busy := rfl
  done := rfl
  err := rfl
  rkv := rfl
  result := rfl
  key := fun j _ => by simp [h.draws]
  inputs := h.inputs
  draws := by simp [h.draws]
  flight := by simp

theorem FieldsAlike.accept (h : FieldsAlike s t) (w : Word) : FieldsAlike (accept w s) (accept w t) :=
  { h with
    busy := rfl
    done := rfl
    err := rfl
    draws := by simp [h.draws]
    flight := by simp [h.draws] }

theorem FieldsAlike.busyEdge (h : FieldsAlike s t) : FieldsAlike (busyEdge s) (busyEdge t) :=
  { h with
    draws := by simp [h.draws]
    flight := fun hb => by
      obtain ⟨hcmd, hwait⟩ := h.flight hb
      exact ⟨hcmd, by simp [hwait]⟩ }

/-! ### Commands and edges keep states alike -/

/-- Two answers are next states that look alike. -/
def AnswersAlike (a b : Answer) : Prop := ∃ t t', a = .next t ∧ b = .next t' ∧ FieldsAlike t t'

theorem FieldsAlike.next (h : FieldsAlike s t) : AnswersAlike (.next s) (.next t) := ⟨s, t, rfl, rfl, h⟩

theorem FieldsAlike.returnWith (h : FieldsAlike s t) {α : Type} {w : Nat} (o : Except Completion α)
    (f : α → BitVec w) : AnswersAlike (returnWith o f s) (returnWith o f t) := by
  cases o with
  | error e => exact (h.complete e).next
  | ok a => exact ((h.setResult _).complete .ok).next

theorem exec_wrkey_of_ok {idx : Index} {i : Fin 9} (h : keyIndex idx = .ok i) (k : RoundKey) (s : State) :
    exec (.wrkey idx k) s = .next (complete .ok (writeKey i k s)) := by
  simp [exec, execWrkey, h]

theorem FieldsAlike.exec (h : FieldsAlike s t) (i : Instr) : AnswersAlike (exec i s) (exec i t) := by
  cases i with
  | nop => exact (h.complete .ok).next
  | keygen n key =>
    by_cases hn : n.toNat ≤ 9
    · rw [exec_keygen_of_le hn, exec_keygen_of_le hn]
      exact ((h.loadSchedule n.toNat key).complete .ok).next
    · rw [exec_keygen_of_gt (Nat.lt_of_not_le hn), exec_keygen_of_gt (Nat.lt_of_not_le hn)]
      exact (h.invalidateKeys.complete .roundsRange).next
  | wrkey idx key =>
    cases hidx : keyIndex idx with
    | ok i =>
      rw [exec_wrkey_of_ok hidx, exec_wrkey_of_ok hidx]
      exact ((h.writeKey i key).complete .ok).next
    | error e =>
      obtain ⟨hgt, -⟩ := (keyIndex_error_iff idx e).1 hidx
      rw [exec_wrkey_of_gt hgt, exec_wrkey_of_gt hgt]
      exact (h.complete .indexRange).next
  | encrypt n p => rw [exec_encrypt, exec_encrypt, h.roundKeys]; exact h.returnWith _ _
  | decrypt n c => rw [exec_decrypt, exec_decrypt, h.roundKeys]; exact h.returnWith _ _
  | rdkey idx => rw [exec_rdkey, exec_rdkey, h.keyOperand]; exact h.returnWith _ _
  | roundf idx half => rw [exec_roundf, exec_roundf, h.keyOperand]; exact h.returnWith _ _
  | round idx block => rw [exec_round, exec_round, h.keyOperand]; exact h.returnWith _ _
  | expand half => exact ((h.setResult _).complete .ok).next
  | subst byte => exact ((h.setResult _).complete .ok).next
  | fperm block => exact ((h.setResult _).complete .ok).next

theorem FieldsAlike.runWord (h : FieldsAlike s t) (w : Word) : AnswersAlike (runWord w s) (runWord w t) := by
  cases hd : decode w with
  | none =>
    rw [runWord_of_illegal hd, runWord_of_illegal hd]
    exact (h.complete .illegalCmd).next
  | some i =>
    rw [runWord_of_decode hd, runWord_of_decode hd]
    exact h.exec i

/-- Alike states take the same kind of edge: its guards read only what they share. -/
theorem FieldsAlike.step (h : FieldsAlike s t) : AnswersAlike (step s) (step t) := by
  cases hr : s.pins.rst with
  | true =>
    rw [step_of_reset hr, step_of_reset (h.pins ▸ hr)]
    exact h.tick.resetEdge.next
  | false =>
    have hr' : t.pins.rst = false := h.pins ▸ hr
    cases hb : s.busy with
    | true =>
      have hb' : t.busy = true := h.busy ▸ hb
      obtain ⟨hcmd, hwait⟩ := h.flight hb
      by_cases hw : s.wait ≤ 1
      · rw [step_of_completing hr hb hw, step_of_completing hr' hb' (hwait ▸ hw), hcmd]
        exact h.tick.runWord t.cmd
      · have hlt : 1 < s.wait := Nat.lt_of_not_le hw
        rw [step_of_waiting hr hb hlt, step_of_waiting hr' hb' (hwait ▸ hlt)]
        exact h.tick.busyEdge.next
    | false =>
      have hb' : t.busy = false := h.busy ▸ hb
      cases hv : s.pins.cmdValid with
      | true =>
        rw [step_of_accepting hr hb hv, step_of_accepting hr' hb' (h.pins ▸ hv), h.pins]
        exact (h.tick.accept t.pins.cmd).next
      | false =>
        rw [step_of_idle hr hb hv, step_of_idle hr' hb' (h.pins ▸ hv)]
        exact h.tick.next

end Operations

/-- Settles O53: an edge is built from operations that each keep states alike. -/
theorem hiddenContentsNeverShow : Obligations.HiddenContentsNeverShow := by
  intro s s' hlike
  have h := (looksLike_iff_fieldsAlike s s').1 hlike
  obtain ⟨t, t', ht, ht', hnext⟩ := h.step
  exact ⟨⟨t, t', ht, ht', (looksLike_iff_fieldsAlike t t').2 hnext⟩, h.cmdReady,
    fun hb => ⟨h.statusOutput_of_idle hb, h.resultOutput_of_idle hb⟩⟩

end Sys2Proof.Machine
end

section
/-! What writes `RESULT` (10_state.md R24, 70_reset_and_hazards.md R117), and where the fields of the status word stand
(R21). -/

namespace Sys2Proof.Machine

/-- The commands that give a value (R24). -/
def valueMnemonics : List Mnemonic := [.encrypt, .decrypt, .rdkey, .expand, .subst, .roundf, .round, .fperm]

/-- The commands that give no value are these three. -/
theorem mnemonic_mem_valueMnemonics (i : Instr) :
    i.mnemonic ∈ valueMnemonics ∨ i = .nop ∨ (∃ n key, i = .keygen n key) ∨ ∃ idx key, i = .wrkey idx key := by
  cases i <;> simp [Instr.mnemonic, valueMnemonics]

theorem exec_wrkey_result {idx : Index} {key : RoundKey} {s t : State} (h : exec (.wrkey idx key) s = .next t) :
    t.result = s.result := by
  cases hidx : keyIndex idx with
  | ok i =>
    rw [exec_wrkey_of_ok hidx] at h
    cases h
    rfl
  | error e =>
    rw [exec_wrkey_of_gt ((keyIndex_error_iff idx e).1 hidx).1] at h
    cases h
    rfl

theorem exec_keygen_result {n : Index} {key : MasterKey} {s t : State} (h : exec (.keygen n key) s = .next t) :
    t.result = s.result := by
  by_cases hn : n.toNat ≤ 9
  · rw [exec_keygen_of_le hn] at h
    cases h
    rfl
  · rw [exec_keygen_of_gt (Nat.lt_of_not_le hn)] at h
    cases h
    rfl

/-- A command that changes `RESULT` is one that gives a value, and it completes without an error. -/
theorem exec_of_result_ne {i : Instr} {s t : State} (h : exec i s = .next t) (hne : t.result ≠ s.result) :
    i.mnemonic ∈ valueMnemonics ∧ ∃ v, t = complete .ok { s with result := v } := by
  constructor
  · obtain hmem | rfl | ⟨n, key, rfl⟩ | ⟨idx, key, rfl⟩ := mnemonic_mem_valueMnemonics i
    · exact hmem
    · rw [exec_nop] at h
      cases h
      exact absurd rfl hne
    · exact absurd (exec_keygen_result h) hne
    · exact absurd (exec_wrkey_result h) hne
  · obtain ⟨c, rfl⟩ | hval | ⟨_, _, _, ⟨_, rfl⟩ | ⟨_, rfl⟩⟩ | ⟨_, _, _, _, _, rfl⟩ := exec_cases h
    case inr.inl => exact hval
    all_goals exact absurd rfl hne

theorem runWord_of_result_ne {w : Word} {s t : State} (h : runWord w s = .next t) (hne : t.result ≠ s.result) :
    ∃ i, decode w = some i ∧ i.mnemonic ∈ valueMnemonics ∧ ∃ v, t = complete .ok { s with result := v } := by
  cases hd : decode w with
  | none =>
    rw [runWord_of_illegal hd] at h
    cases h
    exact absurd rfl hne
  | some i =>
    rw [runWord_of_decode hd] at h
    exact ⟨i, rfl, exec_of_result_ne h hne⟩

/-- Settles O36: of the five kinds of edge only the reset edge and the completing edge touch `RESULT`. -/
theorem onlyValueCommandsAndResetWriteResult : Obligations.OnlyValueCommandsAndResetWriteResult := by
  intro s t hs hne
  obtain ⟨hr, -⟩ | ⟨-, hb, -, hrun⟩ | ⟨-, -, -, rfl⟩ | ⟨-, -, -, rfl⟩ | ⟨-, -, -, rfl⟩ := step_cases hs
  case inl => exact .inl hr
  case inr.inl =>
    obtain ⟨i, hd, hmem, v, rfl⟩ := runWord_of_result_ne hrun hne
    exact .inr ⟨hb, rfl, rfl, rfl, i, hd, hmem⟩
  all_goals exact absurd rfl hne

/-! ### The fields of the status word -/

theorem statusOutput_err (s : State) : (statusOutput s).extractLsb' 2 3 = s.err := by
  ext j hj
  simp [statusOutput_getLsbD, ← BitVec.getLsbD_eq_getElem, hj, show 2 + j ≠ 1 by omega, show 2 + j < 5 by omega]

theorem statusOutput_low_reserved (s : State) : (statusOutput s).extractLsb' 5 11 = 0 := by
  ext j hj
  simp [statusOutput_getLsbD, show 5 + j ≠ 1 by omega, show 5 + j < 16 by omega]

theorem statusOutput_high_reserved (s : State) : (statusOutput s).extractLsb' 25 7 = 0 := by
  ext j hj
  simp [statusOutput_getLsbD, show 25 + j ≠ 1 by omega, show ¬ 25 + j < 5 by omega, show ¬ 25 + j < 16 by omega]

theorem statusOutput_rkv_of_idle {s : State} (hb : s.busy = false) (i : Fin 9) :
    (statusOutput s).getLsbD (16 + i.val) = keyValid s i.val := by
  simp [statusOutput_getLsbD, rkvOutput, keyValid, hb, show 16 + i.val ≠ 1 by omega, show ¬ 16 + i.val < 5 by omega,
    show 16 + i.val < 25 by omega]

/-- While a command is in flight the low half of the status word is `BUSY` alone. -/
theorem statusOutput_low_of_busy {s : State} (h : s.Inv) (hb : s.busy = true) :
    (statusOutput s).extractLsb' 0 16 = 1 := by
  obtain ⟨-, hflags, -⟩ := h
  obtain ⟨hdone, herr⟩ := hflags hb
  ext j hj
  by_cases h0 : j = 0
  · simp [h0, statusOutput_getLsbD, hb]
  · simp [statusOutput_getLsbD, hdone, herr, h0, hj, ← BitVec.getLsbD_eq_getElem, BitVec.getLsbD_one]

/-- Settles O44: field by field, from the bits of the status word. -/
theorem statusWordLayout : Obligations.StatusWordLayout := by
  refine ⟨fun s => ⟨?_, ?_, ?_, ?_, ?_, ?_⟩, fun s => ?_⟩
  · exact statusOutput_getLsbD s 0
  · exact statusOutput_getLsbD s 1
  · exact statusOutput_err s
  · exact statusOutput_low_reserved s
  · exact statusOutput_high_reserved s
  · exact statusOutput_rkv_of_idle
  · exact statusOutput_low_of_busy

end Sys2Proof.Machine
end

section
/-! One rising edge as the host sees it (20_memory.md R39 to R41, R43, R44; 70_reset_and_hazards.md R108): what an edge
into a busy engine was, what an edge does not look at, and what it leaves. -/

namespace Sys2Proof.Machine

/-- A completing edge ends idle (R41). -/
theorem runWord_ends_idle {w : Word} {s t : State} (h : runWord w s = .next t) : t.busy = false ∧ t.done = true := by
  obtain ⟨c, u, rfl⟩ := runWord_eq_complete h
  exact ⟨rfl, rfl⟩

/-- Only two kinds of edge end in a busy engine: one inside a command, and an acceptance. -/
theorem step_to_busy_cases {s t : State} (h : step s = .next t) (ht : t.busy = true) :
    s.pins.rst = false ∧
      ((s.busy = true ∧ 1 < s.wait ∧ t = busyEdge s.tick) ∨
        (s.busy = false ∧ s.pins.cmdValid = true ∧ t = accept s.pins.cmd s.tick)) := by
  obtain ⟨-, rfl⟩ | ⟨-, -, -, hrun⟩ | ⟨hr, hb, hw, rfl⟩ | ⟨hr, hb, hv, rfl⟩ | ⟨-, hb, -, rfl⟩ := step_cases h
  case inl => cases ht
  case inr.inl => simp [runWord_ends_idle hrun] at ht
  case inr.inr.inl => exact ⟨hr, .inl ⟨hb, hw, rfl⟩⟩
  case inr.inr.inr.inl => exact ⟨hr, .inr ⟨hb, hv, rfl⟩⟩
  case inr.inr.inr.inr => simp [hb] at ht

/-- No edge from a busy engine latches a word (R27, R41). -/
theorem step_keeps_cmd_in_flight {s t : State} (hb : s.busy = true) (h : step s = .next t) (ht : t.busy = true) :
    t.cmd = s.cmd := by
  obtain ⟨-, ⟨-, -, rfl⟩ | ⟨hidle, -, -⟩⟩ := step_to_busy_cases h ht
  · rfl
  · simp [hb] at hidle

/-- Whatever the registers without a reset value hold, no host can tell (R33, R108). -/
theorem resetEdge_visible (s : State) : (resetEdge s).visible = State.reset.visible := by
  rw [visible_eq_iff]
  exact ⟨rfl, rfl, rfl, rfl, rfl, fun j hj => by simp [keyValid] at hj⟩

/-! ### What an edge does not look at (R40) -/

/-- Two samples with the same `rst` lead a busy or reset engine to the same state. -/
theorem step_congr_of_not_ready {s s' : State} (htick : s.tick = s'.tick) (hrst : s.pins.rst = s'.pins.rst)
    (h : s.busy = true ∨ s.pins.rst = true) : step s = step s' := by
  have hbusy : s.busy = s'.busy := by simpa using congrArg State.busy htick
  have hwait : s.wait = s'.wait := by simpa using congrArg State.wait htick
  have hcmd : s.cmd = s'.cmd := by simpa using congrArg State.cmd htick
  cases hr : s.pins.rst with
  | true => rw [step_of_reset hr, step_of_reset (hrst ▸ hr), htick]
  | false =>
    have hb : s.busy = true := h.resolve_right (by simp [hr])
    by_cases hw : s.wait ≤ 1
    · rw [step_of_completing hr hb hw, step_of_completing (hrst ▸ hr) (hbusy ▸ hb) (hwait ▸ hw), hcmd, htick]
    · have hlt : 1 < s.wait := Nat.lt_of_not_le hw
      rw [step_of_waiting hr hb hlt, step_of_waiting (hrst ▸ hr) (hbusy ▸ hb) (hwait ▸ hlt), htick]

/-- Two samples without `cmd_valid` and with the same `rst` lead every engine to the same state. -/
theorem step_congr_of_not_valid {s s' : State} (htick : s.tick = s'.tick) (hrst : s.pins.rst = s'.pins.rst)
    (hv : s.pins.cmdValid = false) (hv' : s'.pins.cmdValid = false) : step s = step s' := by
  by_cases h : s.busy = true ∨ s.pins.rst = true
  · exact step_congr_of_not_ready htick hrst h
  · obtain ⟨hb, hr⟩ : s.busy = false ∧ s.pins.rst = false := by simpa using h
    have hbusy : s.busy = s'.busy := by simpa using congrArg State.busy htick
    rw [step_of_idle hr hb hv, step_of_idle (hrst ▸ hr) (hbusy ▸ hb) hv', htick]

/-- Settles O42. -/
theorem wordsNotAcceptedHaveNoEffect : Obligations.WordsNotAcceptedHaveNoEffect :=
  ⟨fun _ _ _ _ _ _ _ h => step_congr_of_not_ready rfl rfl h, fun _ _ _ _ _ => step_congr_of_not_valid rfl rfl rfl rfl⟩

/-! ### What an edge leaves -/

/-- Settles O43: no output depends on the host's coming samples. -/
theorem idleEdgeChangesNothing : Obligations.IdleEdgeChangesNothing :=
  fun s hb hr hv => ⟨s.tick, step_of_idle hr hb hv, rfl, rfl, rfl⟩

theorem releaseReset_head (ps : List PortSample) : ((releaseReset ps).headD PortSample.idle).rst = false := by
  cases ps <;> rfl

/-- The step after a word is placed is its completing edge (log 11). -/
theorem step_inFlight (w : Word) (s : State) : step (inFlight w s) = runWord w (inFlight w s).tick :=
  step_of_completing (releaseReset_head s.inputs) rfl (Nat.le_refl 1)

/-- Settles O39. -/
theorem stepRunsTheDecodedCommand : Obligations.StepRunsTheDecodedCommand := by
  refine ⟨fun s i hr hb hw _ hd => ?_, fun s hr hb hw hd => ?_, fun s w i hlt hd => ?_⟩
  · rw [step_of_completing hr hb hw, runWord_of_decode hd]
    rfl
  · rw [step_of_completing hr hb hw, runWord_of_illegal hd]
    exact ⟨_, rfl, rfl, rfl, rfl, ⟨rfl, rfl⟩, rfl⟩
  · have hfetch : s.withFetchWord 32 w = inFlight (BitVec.ofNat 32 w) s := by
      rw [State.withFetchWord, Nat.mod_eq_of_lt hlt]
    rw [hfetch, step_inFlight, runWord_of_decode hd]

/-- Settles O45. -/
theorem busyEdgesCommitNothing : Obligations.BusyEdgesCommitNothing := by
  refine ⟨fun s hb hr hw => ?_, fun s t hs => ⟨fun hb ht => ?_, fun hb ht => ?_⟩⟩
  · refine ⟨_, step_of_waiting hr hb hw, hb, rfl, rfl, ⟨rfl, rfl⟩, rfl, rfl, ?_⟩
    simp only [busyEdge_wait, State.tick_wait]
    omega
  · obtain ⟨hr, -⟩ | ⟨-, -, hw, hrun⟩ | ⟨-, -, -, rfl⟩ | ⟨-, hidle, -⟩ | ⟨-, hidle, -⟩ := step_cases hs
    case inl => exact .inl hr
    case inr.inl => exact .inr ⟨hw, (runWord_ends_idle hrun).2⟩
    case inr.inr.inl => simp [hb] at ht
    all_goals simp [hb] at hidle
  · obtain ⟨hr, ⟨hbusy, -⟩ | ⟨-, hv, -⟩⟩ := step_to_busy_cases hs ht
    · simp [hb] at hbusy
    · exact ⟨hr, hv⟩

/-- Settles O41: the acceptance itself, and that no other edge is one. -/
theorem acceptanceLatchesTheWord : Obligations.AcceptanceLatchesTheWord := by
  refine ⟨fun s hr hb hv => ?_, fun s t hnot hs ht => ?_, fun s hv => ?_⟩
  · exact ⟨_, step_of_accepting hr hb hv, rfl, rfl, rfl, rfl, ⟨rfl, rfl⟩, rfl, rfl⟩
  · obtain ⟨hr, ⟨hb, -, rfl⟩ | ⟨hb, hv, -⟩⟩ := step_to_busy_cases hs ht
    · exact ⟨hb, rfl⟩
    · exact absurd ⟨hr, hb, hv⟩ hnot
  · rw [readyIsIdleAndNotReset s]
    refine and_congr_right fun hb => ⟨fun hr => ⟨_, step_of_accepting hr hb hv, rfl⟩, ?_⟩
    rintro ⟨t, hs, ht⟩
    exact (step_to_busy_cases hs ht).1

end Sys2Proof.Machine
end

section
/-! What a command depends on: the valid round keys, their valid bits and `RESULT` (10_state.md R22 to R24). Run from two
states that agree on these, whatever their status, hidden registers, latencies and coming port samples, a word completes
with the same code and leaves them in agreement. -/

namespace Sys2Proof.Machine

/-- Two states hold the same valid round keys and the same `RESULT`: `FieldsAlike` without the control registers, the
host's samples and the counter of draws. -/
structure DataAlike (s t : State) : Prop where
  rkv : s.rkv = t.rkv
  result : s.result = t.result
  key : ∀ j : Fin 9, keyValid s j.val = true → s.rk[j] = t.rk[j]

/-- The data of `t` under the control of `s`. -/
def State.withData (s t : State) : State := { s with rk := t.rk, rkv := t.rkv, result := t.result }

theorem visible_eq_iff_dataAlike (s t : State) :
    s.visible = t.visible ↔ s.busy = t.busy ∧ s.done = t.done ∧ s.err = t.err ∧ DataAlike s t := by
  rw [visible_eq_iff]
  refine and_congr_right fun _ => and_congr_right fun _ => and_congr_right fun _ => ⟨?_, ?_⟩
  · rintro ⟨rkv, result, key⟩
    exact ⟨rkv, result, key⟩
  · rintro ⟨rkv, result, key⟩
    exact ⟨rkv, result, key⟩

section Operations
variable {s t : State}

theorem DataAlike.fieldsAlike (h : DataAlike s t) : FieldsAlike s (s.withData t) :=
  { h with busy := rfl, done := rfl, err := rfl, inputs := rfl, draws := rfl, flight := fun _ => ⟨rfl, rfl⟩ }

theorem DataAlike.refl (s : State) : DataAlike s s := ⟨rfl, rfl, fun _ _ => rfl⟩

theorem DataAlike.of_keeps {u : State} (h : DataAlike s u) (hkeys : KeepsKeys s t) (hresult : KeepsResult s t) :
    DataAlike t u := by
  obtain ⟨hrk, hrkv⟩ := hkeys
  refine ⟨hrkv.trans h.rkv, hresult.trans h.result, fun j hj => ?_⟩
  rw [hrk]
  exact h.key j (by simpa [keyValid, hrkv] using hj)

/-! ### The operand checks and the operations of the command rules -/

theorem DataAlike.keyOperand (h : DataAlike s t) (idx : Index) : keyOperand idx s = keyOperand idx t :=
  h.fieldsAlike.keyOperand idx

theorem DataAlike.roundKeys (h : DataAlike s t) (n : Index) : roundKeys n s = roundKeys n t :=
  h.fieldsAlike.roundKeys n

theorem DataAlike.setResult (h : DataAlike s t) (v : Block) : DataAlike { s with result := v } { t with result := v } :=
  { h with result := rfl }

theorem DataAlike.writeKey (h : DataAlike s t) (i : Fin 9) (k : RoundKey) :
    DataAlike (writeKey i k s) (writeKey i k t) :=
  have halike := h.fieldsAlike.writeKey i k
  ⟨halike.rkv, halike.result, halike.key⟩

/-- The entries from `n` on are free values, which may differ, and are invalid in both states (R80). -/
theorem DataAlike.loadSchedule (h : DataAlike s t) (n : Nat) (key : MasterKey) :
    DataAlike (loadSchedule n key s) (loadSchedule n key t) where
  rkv := rfl
  result := h.result
  key := fun j hj => by
    have hn : j.val < n := by simpa using hj
    simp [hn]

theorem DataAlike.invalidateKeys (h : DataAlike s t) : DataAlike (invalidateKeys s) (invalidateKeys t) :=
  have halike := h.fieldsAlike.invalidateKeys
  ⟨halike.rkv, halike.result, halike.key⟩

theorem DataAlike.complete_visible (h : DataAlike s t) (c : Completion) :
    (complete c s).visible = (complete c t).visible :=
  (visible_eq_iff_dataAlike _ _).2 ⟨rfl, rfl, rfl, h.rkv, h.result, h.key⟩

/-! ### Commands -/

/-- Two answers are next states that no host can tell apart by their outputs and valid round keys. -/
def AnswersVisiblyAlike (a b : Answer) : Prop := ∃ t u, a = .next t ∧ b = .next u ∧ t.visible = u.visible

theorem DataAlike.complete (h : DataAlike s t) (c : Completion) :
    AnswersVisiblyAlike (.next (complete c s)) (.next (complete c t)) := ⟨_, _, rfl, rfl, h.complete_visible c⟩

theorem DataAlike.returnWith (h : DataAlike s t) {α : Type} {w : Nat} (o : Except Completion α) (f : α → BitVec w) :
    AnswersVisiblyAlike (returnWith o f s) (returnWith o f t) := by
  cases o with
  | error e => exact h.complete e
  | ok a => exact (h.setResult _).complete .ok

theorem DataAlike.exec (h : DataAlike s t) (i : Instr) : AnswersVisiblyAlike (exec i s) (exec i t) := by
  cases i with
  | nop => exact h.complete .ok
  | keygen n key =>
    by_cases hn : n.toNat ≤ 9
    · rw [exec_keygen_of_le hn, exec_keygen_of_le hn]
      exact (h.loadSchedule n.toNat key).complete .ok
    · rw [exec_keygen_of_gt (Nat.lt_of_not_le hn), exec_keygen_of_gt (Nat.lt_of_not_le hn)]
      exact h.invalidateKeys.complete .roundsRange
  | wrkey idx key =>
    cases hidx : keyIndex idx with
    | ok i =>
      rw [exec_wrkey_of_ok hidx, exec_wrkey_of_ok hidx]
      exact (h.writeKey i key).complete .ok
    | error e =>
      obtain ⟨hgt, -⟩ := (keyIndex_error_iff idx e).1 hidx
      rw [exec_wrkey_of_gt hgt, exec_wrkey_of_gt hgt]
      exact h.complete .indexRange
  | encrypt n p => rw [exec_encrypt, exec_encrypt, h.roundKeys]; exact h.returnWith _ _
  | decrypt n c => rw [exec_decrypt, exec_decrypt, h.roundKeys]; exact h.returnWith _ _
  | rdkey idx => rw [exec_rdkey, exec_rdkey, h.keyOperand]; exact h.returnWith _ _
  | roundf idx half => rw [exec_roundf, exec_roundf, h.keyOperand]; exact h.returnWith _ _
  | round idx block => rw [exec_round, exec_round, h.keyOperand]; exact h.returnWith _ _
  | expand half => exact (h.setResult _).complete .ok
  | subst byte => exact (h.setResult _).complete .ok
  | fperm block => exact (h.setResult _).complete .ok

theorem DataAlike.runWord (h : DataAlike s t) (w : Word) : AnswersVisiblyAlike (runWord w s) (runWord w t) := by
  cases hd : decode w with
  | none =>
    rw [runWord_of_illegal hd, runWord_of_illegal hd]
    exact h.complete .illegalCmd
  | some i =>
    rw [runWord_of_decode hd, runWord_of_decode hd]
    exact h.exec i

end Operations

end Sys2Proof.Machine
end

section
/-! The life of one command, edge by edge (20_memory.md R41, R43): busy until its edges are over, then its rule. -/

namespace Sys2Proof.Machine

theorem noResetFor_mono {j k : Nat} {s : State} (hjk : j ≤ k) (h : NoResetFor k s) : NoResetFor j s :=
  fun p hp => h p (List.take_subset_take_left s.inputs hjk hp)

theorem edges_one (s : State) : edges 1 s = step s := by
  cases hs : step s <;> simp [edges, runEdges, hs]

/-- An engine with a command in flight stays busy as long as the completing edge has not come. -/
theorem edges_busy_of_lt_wait (k : Nat) : ∀ s : State, s.busy = true → k < s.wait → NoResetFor k s →
    ∃ t, edges k s = .next t ∧ t.busy = true := by
  induction k with
  | zero => exact fun s hb _ _ => ⟨s, rfl, hb⟩
  | succ k ih =>
    intro s hb hw hn
    obtain ⟨hr, hrest⟩ := noResetFor_succ hn
    rw [edges_succ (step_of_waiting hr hb (by omega))]
    refine ih _ hb ?_ (hrest _ rfl)
    simp only [busyEdge_wait, State.tick_wait]
    omega

/-- When its edges are over, the command in flight has run on the round keys and the `RESULT` that stood there
before. -/
theorem edges_wait_eq_runWord (n : Nat) : ∀ s : State, s.busy = true → s.wait = n + 1 → NoResetFor (n + 1) s →
    ∃ u, KeepsKeys s u ∧ KeepsResult s u ∧ edges (n + 1) s = runWord s.cmd u := by
  induction n with
  | zero =>
    intro s hb hw hn
    have hs := step_of_completing (noResetFor_succ hn).1 hb (Nat.le_of_eq hw)
    exact ⟨s.tick, ⟨rfl, rfl⟩, rfl, (edges_one s).trans hs⟩
  | succ n ih =>
    intro s hb hw hn
    obtain ⟨hr, hrest⟩ := noResetFor_succ hn
    rw [edges_succ (step_of_waiting hr hb (by omega))]
    exact ih (busyEdge s.tick) hb (by simp [hw]) (hrest _ rfl)

/-- Settles O50: the accepting edge, then the life of the command in flight. -/
theorem acceptedCommandCompletesAtItsLatency : Obligations.AcceptedCommandCompletesAtItsLatency := by
  refine ⟨fun s hb hv hn => ?_, fun s t => step_keeps_cmd_in_flight, fun s _ hr => ?_⟩
  · have hlat : 1 ≤ Config.latency s.pins.cmd s.draws := (latency_bounds _ _).1
    obtain ⟨hr, hrest⟩ := noResetFor_succ hn
    have hacc := step_of_accepting hr hb hv
    have hflight : NoResetFor (Config.latency s.pins.cmd s.draws) (accept s.pins.cmd s.tick) := hrest _ rfl
    refine ⟨hlat, fun k hk hkl => ?_, ?_⟩
    · obtain ⟨j, rfl⟩ := Nat.exists_eq_add_of_le' hk
      rw [edges_succ hacc]
      exact edges_busy_of_lt_wait j _ rfl hkl (noResetFor_mono (Nat.le_of_succ_le hkl) hflight)
    · obtain ⟨n, hlat_eq⟩ := Nat.exists_eq_add_of_le' hlat
      rw [hlat_eq] at hflight
      obtain ⟨v, hkeys, hresult, hrun⟩ := edges_wait_eq_runWord n _ rfl hlat_eq hflight
      have hdata : DataAlike v s := (DataAlike.refl s).of_keeps hkeys hresult
      obtain ⟨t, u, ht, hu, hvis⟩ := hdata.runWord s.pins.cmd
      rw [edges_succ hacc, hlat_eq, hrun]
      exact ⟨t, u, ht, hu, hvis, runWord_ends_idle ht⟩
  · exact ⟨_, step_of_reset hr, resetEdge_visible s.tick⟩

end Sys2Proof.Machine
end

section
/-! The engine refines the serial machine of 20_memory.md R42 and R45: edge by edge, a serial state follows the engine's,
one command behind while a word is in flight. -/

namespace Sys2Proof.Machine

/-- The word accepted and not yet run. -/
def inFlightWords (s : State) : List Word := if s.busy then [s.cmd] else []

/-- The serial state `v` has run every word that the engine has completed. -/
structure FollowedBy (s v : State) : Prop where
  data : DataAlike s v
  idle : s.busy = false → s.visible = v.visible

theorem FollowedBy.of_visible {s v : State} (h : s.visible = v.visible) : FollowedBy s v := by
  obtain ⟨-, -, -, hdata⟩ := (visible_eq_iff_dataAlike s v).1 h
  exact ⟨hdata, fun _ => h⟩

theorem inFlightWords_of_busy {s : State} (h : s.busy = true) : inFlightWords s = [s.cmd] := by
  simp [inFlightWords, h]

theorem inFlightWords_of_idle {s : State} (h : s.busy = false) : inFlightWords s = [] := by
  simp [inFlightWords, h]

theorem acceptedNow_of_busy {s : State} (h : s.busy = true) : acceptedNow s = [] := by
  simp [acceptedNow, cmdReady, h]

theorem acceptedNow_of_not_valid {s : State} (h : s.pins.cmdValid = false) : acceptedNow s = [] := by
  simp [acceptedNow, h]

theorem acceptedNow_of_accepting {s : State} (hr : s.pins.rst = false) (hb : s.busy = false)
    (hv : s.pins.cmdValid = true) : acceptedNow s = [s.pins.cmd] := by
  simp [acceptedNow, cmdReady, hr, hb, hv]

theorem serialRun_singleton {w : Word} {s t : State} (h : runWord w s = .next t) : serialRun [w] s = .next t := by
  rw [serialRun_cons h]
  rfl

theorem serialRun_append {ws more : List Word} {s t : State} (h : serialRun ws s = .next t) :
    serialRun (ws ++ more) s = serialRun more t := by
  induction ws generalizing s with
  | nil =>
    cases h
    rfl
  | cons w ws ih =>
    cases hrun : runWord w s with
    | next u =>
      rw [serialRun_cons hrun] at h
      rw [List.cons_append, serialRun_cons hrun, ih h]
    | fault e => simp [serialRun, hrun] at h
    | refused e => simp [serialRun, hrun] at h

/-- A run of one edge more is an edge and a run. -/
theorem edges_succ_cases {k : Nat} {s t : State} (h : edges (k + 1) s = .next t) :
    ∃ u, step s = .next u ∧ edges k u = .next t := by
  cases hs : step s with
  | next u => exact ⟨u, rfl, edges_succ hs ▸ h⟩
  | fault e => simp [edges, runEdges, hs] at h
  | refused e => simp [edges, runEdges, hs] at h

/-- Every command leaves the host's coming samples alone. -/
theorem runWord_inputs {w : Word} {s t : State} (h : runWord w s = .next t) : t.inputs = s.inputs := by
  cases hd : decode w with
  | none =>
    rw [runWord_of_illegal hd] at h
    cases h
    rfl
  | some i =>
    rw [runWord_of_decode hd] at h
    obtain ⟨c, rfl⟩ | ⟨v, rfl⟩ | ⟨_, _, _, ⟨_, rfl⟩ | ⟨_, rfl⟩⟩ | ⟨_, _, _, _, _, rfl⟩ := exec_cases h <;> rfl

/-- Every edge takes one sample. -/
theorem step_inputs {s t : State} (h : step s = .next t) : t.inputs = s.inputs.tail := by
  obtain ⟨-, rfl⟩ | ⟨-, -, -, hrun⟩ | ⟨-, -, -, rfl⟩ | ⟨-, -, -, rfl⟩ | ⟨-, -, -, rfl⟩ := step_cases h
  case inr.inl => exact runWord_inputs hrun
  all_goals rfl

/-- The commuting diagram of one edge: the serial state runs the words `ws` that the edge completes, one or none, and of
the words in flight or accepted now the others are those in flight after it. -/
theorem FollowedBy.step {s t v : State} (h : FollowedBy s v) (hr : s.pins.rst = false) (hs : step s = .next t) :
    ∃ ws u, inFlightWords s ++ acceptedNow s = ws ++ inFlightWords t ∧ serialRun ws v = .next u ∧ FollowedBy t u := by
  obtain ⟨hreset, -⟩ | ⟨-, hb, -, hrun⟩ | ⟨-, hb, -, rfl⟩ | ⟨-, hb, hv, rfl⟩ | ⟨-, hb, hv, rfl⟩ := step_cases hs
  case inl => simp [hr] at hreset
  case inr.inl =>
    have hdata : DataAlike s.tick v := h.data.of_keeps ⟨rfl, rfl⟩ rfl
    obtain ⟨t', u, ht', hu, hvis⟩ := hdata.runWord s.cmd
    obtain rfl : t' = t := by simpa [hrun] using ht'.symm
    refine ⟨[s.cmd], u, ?_, serialRun_singleton hu, .of_visible hvis⟩
    simp [inFlightWords_of_busy hb, acceptedNow_of_busy hb, inFlightWords_of_idle (runWord_ends_idle hrun).1]
  case inr.inr.inl =>
    refine ⟨[], v, ?_, rfl, h.data.of_keeps ⟨rfl, rfl⟩ rfl, fun hidle => ?_⟩
    · rw [inFlightWords_of_busy hb, acceptedNow_of_busy hb, inFlightWords_of_busy (s := busyEdge s.tick) hb]
      rfl
    · simp [hb] at hidle
  case inr.inr.inr.inl =>
    refine ⟨[], v, ?_, rfl, h.data.of_keeps ⟨rfl, rfl⟩ rfl, fun hidle => ?_⟩
    · rw [inFlightWords_of_idle hb, acceptedNow_of_accepting hr hb hv, inFlightWords_of_busy rfl]
      rfl
    · simp at hidle
  case inr.inr.inr.inr =>
    refine ⟨[], v, ?_, rfl, h.data.of_keeps ⟨rfl, rfl⟩ rfl, h.idle⟩
    rw [inFlightWords_of_idle hb, acceptedNow_of_not_valid hv, inFlightWords_of_idle (s := s.tick) hb]

/-- The diagram over any number of edges. -/
theorem FollowedBy.edges {k : Nat} {s t v : State} (h : FollowedBy s v) (hn : NoResetFor k s)
    (hk : edges k s = .next t) :
    ∃ ws u, inFlightWords s ++ acceptedWords k s = ws ++ inFlightWords t ∧ serialRun ws v = .next u ∧
      FollowedBy t u := by
  induction k generalizing s v with
  | zero =>
    cases hk
    exact ⟨[], v, by simp [acceptedWords], rfl, h⟩
  | succ k ih =>
    obtain ⟨hr, hrest⟩ := noResetFor_succ hn
    obtain ⟨s₁, hs, hk⟩ := edges_succ_cases hk
    obtain ⟨ws, v₁, hwords, hrun, h₁⟩ := h.step hr hs
    obtain ⟨more, u, hmore, hrun₁, hu⟩ := ih h₁ (hrest s₁ (step_inputs hs)) hk
    refine ⟨ws ++ more, u, ?_, (serialRun_append hrun).trans hrun₁, hu⟩
    calc inFlightWords s ++ acceptedWords (k + 1) s
        = (inFlightWords s ++ acceptedNow s) ++ acceptedWords k s₁ := by
          rw [acceptedWords_succ hs, List.append_assoc]
      _ = ws ++ (inFlightWords s₁ ++ acceptedWords k s₁) := by rw [hwords, List.append_assoc]
      _ = (ws ++ more) ++ inFlightWords t := by rw [hmore, List.append_assoc]

/-- Settles O52: between two idle states nothing is in flight, so the serial run is of all the accepted words. -/
theorem engineIsTheSerialFoldOfItsWords : Obligations.EngineIsTheSerialFoldOfItsWords := by
  intro s t k hb hn hk ht
  obtain ⟨ws, u, hwords, hrun, hu⟩ := (FollowedBy.of_visible (v := s) rfl).edges hn hk
  rw [inFlightWords_of_idle hb, inFlightWords_of_idle ht, List.nil_append, List.append_nil] at hwords
  exact ⟨u, hwords ▸ hrun, hu.idle ht⟩

end Sys2Proof.Machine
end

section
/-! `Decode` and the encoder are inverse to each other (30_encoding.md R57, R62): a word decodes to a command exactly
when it is that command's word. -/

namespace Sys2Proof

/-- The value of `OP` of each mnemonic (R52). -/
def Mnemonic.opcode : Mnemonic → BitVec 4
  | .nop => 0x0
  | .keygen => 0x1
  | .encrypt => 0x2
  | .decrypt => 0x3
  | .wrkey => 0x4
  | .rdkey => 0x5
  | .expand => 0x6
  | .subst => 0x7
  | .roundf => 0x8
  | .round => 0x9
  | .fperm => 0xA

@[simp] theorem opField_encode (i : Instr) : opField (encode i) = i.mnemonic.opcode := by
  cases i <;> exact opField_formatC _ _ _

/-- The only word in format `C` with the given fields. -/
theorem formatC_eq_iff (op n : BitVec 4) (d : BitVec 12) (w : Word) :
    formatC op n d = w ↔ opField w = op ∧ nField w = n ∧ zField w = 0 ∧ dField w = d := by
  constructor
  · rintro rfl
    simp
  · rintro ⟨rfl, rfl, hz, rfl⟩
    exact formatC_fields w hz

/-! ### Decoding a command's word -/

theorem dOperand_formatC (op n : BitVec 4) {width : Nat} (v : BitVec width) (h : width ≤ 12) :
    dOperand width (formatC op n (v.setWidth 12)) = some v := by
  rw [dOperand_eq_some width _ v h, dField_formatC]

/-- A 12-bit operand is the whole of `D`. -/
theorem dOperand_formatC_block (op n : BitVec 4) (d : BitVec 12) : dOperand 12 (formatC op n d) = some d := by
  simpa using dOperand_formatC op n d (Nat.le_refl 12)

/-- A command without an operand in `D` has `D` zero. -/
theorem dOperand_formatC_zero (op n : BitVec 4) : dOperand 0 (formatC op n 0#12) = some 0#0 :=
  dOperand_formatC op n 0#0 (Nat.zero_le 12)

theorem decode_formatC (op n : BitVec 4) (d : BitVec 12) : decode (formatC op n d) = decodeOp (formatC op n d) := by
  simp [decode]

theorem decode_encode (i : Instr) : decode (encode i) = some i := by
  cases i <;>
    simp [encode, decode_formatC, decodeOp, requireZeroN, dOperand_formatC, dOperand_formatC_block,
      dOperand_formatC_zero]

/-! ### Encoding what was decoded -/

theorem decode_eq_some {w : Word} {i : Instr} (h : decode w = some i) : zField w = 0 ∧ decodeOp w = some i := by
  simpa [decode] using h

/-- An operand read from `D` writes `D` back. -/
theorem map_dOperand_eq_some {width : Nat} {w : Word} {f : BitVec width → Instr} {i : Instr} (hw : width ≤ 12)
    (h : (dOperand width w).map f = some i) : ∃ v, dField w = v.setWidth 12 ∧ f v = i := by
  obtain ⟨v, hv, hi⟩ := Option.map_eq_some_iff.1 h
  exact ⟨v, (dOperand_eq_some width w v hw).1 hv, hi⟩

theorem requireZeroN_map_dOperand_eq_some {width : Nat} {w : Word} {f : BitVec width → Instr} {i : Instr}
    (hw : width ≤ 12) (h : requireZeroN w ((dOperand width w).map f) = some i) :
    nField w = 0 ∧ ∃ v, dField w = v.setWidth 12 ∧ f v = i := by
  obtain ⟨hn, hmap⟩ : nField w = 0 ∧ (dOperand width w).map f = some i := by simpa [requireZeroN] using h
  exact ⟨hn, map_dOperand_eq_some hw hmap⟩

theorem setWidth_of_width_zero (v : BitVec 0) : v.setWidth 12 = 0#12 := by
  rw [BitVec.eq_nil v]
  rfl

theorem encode_of_decode {w : Word} {i : Instr} (h : decode w = some i) : encode i = w := by
  obtain ⟨hz, hop⟩ := decode_eq_some h
  have word {op n : BitVec 4} {d : BitVec 12} (ho : (opField w).toNat = op.toNat) (hn : nField w = n)
      (hd : dField w = d) : formatC op n d = w :=
    (formatC_eq_iff op n d w).2 ⟨BitVec.eq_of_toNat_eq ho, hn, hz, hd⟩
  unfold decodeOp at hop
  split at hop
  case h_1 ho =>
    obtain ⟨hn, v, hd, rfl⟩ := requireZeroN_map_dOperand_eq_some (by decide) hop
    exact word ho hn (hd.trans (setWidth_of_width_zero v))
  case h_2 ho | h_5 ho | h_9 ho =>
    obtain ⟨v, hd, rfl⟩ := map_dOperand_eq_some (by decide) hop
    exact word ho rfl hd
  case h_3 ho | h_4 ho | h_10 ho =>
    obtain ⟨v, hd, rfl⟩ := map_dOperand_eq_some (by decide) hop
    exact word ho rfl (hd.trans v.setWidth_eq)
  case h_6 ho =>
    obtain ⟨v, hd, rfl⟩ := map_dOperand_eq_some (by decide) hop
    exact word ho rfl (hd.trans (setWidth_of_width_zero v))
  case h_7 ho | h_8 ho =>
    obtain ⟨hn, v, hd, rfl⟩ := requireZeroN_map_dOperand_eq_some (by decide) hop
    exact word ho hn hd
  case h_11 ho =>
    obtain ⟨hn, v, hd, rfl⟩ := requireZeroN_map_dOperand_eq_some (by decide) hop
    exact word ho hn (hd.trans v.setWidth_eq)
  case h_12 => cases hop

theorem decode_eq_some_iff (w : Word) (i : Instr) : decode w = some i ↔ encode i = w :=
  ⟨encode_of_decode, fun h => h ▸ decode_encode i⟩

end Sys2Proof
end

section
/-! The opcode table (30_encoding.md R55, R57) against the decoder: a row's mask and pattern fix the fields that the
mnemonic's format fixes. -/

namespace Sys2Proof

/-- Whether `N` is an operand of the mnemonic; where it is not, `N` must be zero (R55). -/
def Mnemonic.takesN : Mnemonic → Bool
  | .nop | .expand | .subst | .fperm => false
  | .keygen | .encrypt | .decrypt | .wrkey | .rdkey | .roundf | .round => true

/-- How many of the low bits of `D` are the mnemonic's operand (R54); the others must be zero (R55). -/
def Mnemonic.dWidth : Mnemonic → Nat
  | .nop | .rdkey => 0
  | .expand | .roundf => 6
  | .wrkey | .subst => 8
  | .keygen => 9
  | .encrypt | .decrypt | .round | .fperm => 12

theorem dWidth_le (m : Mnemonic) : m.dWidth ≤ 12 := by cases m <;> decide

/-- The word has the mnemonic's opcode and zeros in all of its must-be-zero bits. -/
structure InFormat (m : Mnemonic) (w : Word) : Prop where
  op : opField w = m.opcode
  n : m.takesN = false → nField w = 0
  z : zField w = 0
  d : (dField w).toNat < 2 ^ m.dWidth

/-- A word in the format of a mnemonic is the word of one of its commands: the fields are the operands. -/
theorem InFormat.exists_encode {m : Mnemonic} {w : Word} (h : InFormat m w) : ∃ i, encode i = w ∧ i.mnemonic = m := by
  obtain ⟨hop, hn, hz, hd⟩ := h
  have low : dField w = ((dField w).setWidth m.dWidth).setWidth 12 :=
    (dOperand_eq_some _ w _ (dWidth_le m)).1 (if_pos hd)
  have word {n : BitVec 4} {d : BitVec 12} (hn : nField w = n) (hd : dField w = d) : formatC m.opcode n d = w :=
    (formatC_eq_iff m.opcode n d w).2 ⟨hop, hn, hz, hd⟩
  cases m
  case nop => exact ⟨.nop, word (hn rfl) (low.trans (setWidth_of_width_zero _)), rfl⟩
  case keygen => exact ⟨.keygen (nField w) _, word rfl low, rfl⟩
  case encrypt => exact ⟨.encrypt (nField w) (dField w), word rfl rfl, rfl⟩
  case decrypt => exact ⟨.decrypt (nField w) (dField w), word rfl rfl, rfl⟩
  case wrkey => exact ⟨.wrkey (nField w) _, word rfl low, rfl⟩
  case rdkey => exact ⟨.rdkey (nField w), word rfl (low.trans (setWidth_of_width_zero _)), rfl⟩
  case expand => exact ⟨.expand _, word (hn rfl) low, rfl⟩
  case subst => exact ⟨.subst _, word (hn rfl) low, rfl⟩
  case roundf => exact ⟨.roundf (nField w) _, word rfl low, rfl⟩
  case round => exact ⟨.round (nField w) (dField w), word rfl rfl, rfl⟩
  case fperm => exact ⟨.fperm (dField w), word (hn rfl) rfl, rfl⟩

/-! ### What a row fixes -/

theorem opField_and (w v : Word) : opField (w &&& v) = opField w &&& opField v := BitVec.extractLsb'_and

theorem nField_and (w v : Word) : nField (w &&& v) = nField w &&& nField v := BitVec.extractLsb'_and

theorem zField_and (w v : Word) : zField (w &&& v) = zField w &&& zField v := BitVec.extractLsb'_and

theorem dField_and (w v : Word) : dField (w &&& v) = dField w &&& dField v := BitVec.extractLsb'_and

/-- The mask and the pattern of a row, field by field. -/
structure OpcodeRow.FixesFormat (r : OpcodeRow) : Prop where
  op : opField r.mask = BitVec.allOnes 4
  n : r.mnemonic.takesN = false → nField r.mask = BitVec.allOnes 4
  z : zField r.mask = BitVec.allOnes 12
  d : dField r.mask = BitVec.allOnes 12 <<< r.mnemonic.dWidth
  pattern : r.pattern = formatC r.mnemonic.opcode 0 0

theorem opcodeTable_fixesFormat {r : OpcodeRow} (h : r ∈ opcodeTable) : r.FixesFormat := by
  have fields : ∀ r ∈ opcodeTable,
      opField r.mask = BitVec.allOnes 4 ∧ (r.mnemonic.takesN = false → nField r.mask = BitVec.allOnes 4) ∧
        zField r.mask = BitVec.allOnes 12 ∧ dField r.mask = BitVec.allOnes 12 <<< r.mnemonic.dWidth ∧
        r.pattern = formatC r.mnemonic.opcode 0 0 := by decide
  obtain ⟨op, n, z, d, pattern⟩ := fields r h
  exact ⟨op, n, z, d, pattern⟩

/-- A value without a one from bit `k` on is below `2 ^ k`. -/
theorem toNat_lt_of_and_eq_zero {width k : Nat} {d : BitVec width} (h : d &&& (BitVec.allOnes width <<< k) = 0) :
    d.toNat < 2 ^ k := by
  refine Nat.lt_pow_two_of_testBit _ fun j hj => ?_
  change d.getLsbD j = false
  by_cases hw : j < width
  · have hbit := congrArg (·.getLsbD j) h
    simpa [hw, Nat.not_lt.2 hj, show j - k < width by omega, BitVec.getLsbD_eq_getElem] using hbit
  · exact d.getLsbD_of_ge j (Nat.le_of_not_lt hw)

theorem OpcodeRow.FixesFormat.inFormat {r : OpcodeRow} {w : Word} (hr : r.FixesFormat) (h : r.covers w) :
    InFormat r.mnemonic w := by
  have field {k : Nat} {f : Word → BitVec k} (hand : ∀ w v, f (w &&& v) = f w &&& f v) :
      f w &&& f r.mask = f (formatC r.mnemonic.opcode 0 0) := by
    rw [← hand, h, hr.pattern]
  refine ⟨?_, fun hn => ?_, ?_, toNat_lt_of_and_eq_zero ?_⟩
  · simpa only [hr.op, BitVec.and_allOnes, opField_formatC] using field opField_and
  · simpa only [hr.n hn, BitVec.and_allOnes, nField_formatC] using field nField_and
  · simpa only [hr.z, BitVec.and_allOnes, zField_formatC] using field zField_and
  · simpa only [hr.d, dField_formatC] using field dField_and

theorem encodesInRow (i : Instr) : Laws.EncodesInRow.Statement i := by
  cases i with
  | nop => exact Laws.EncodesInRow.nop
  | keygen n key => exact Laws.EncodesInRow.keygen n key
  | encrypt n plain => exact Laws.EncodesInRow.encrypt n plain
  | decrypt n cipher => exact Laws.EncodesInRow.decrypt n cipher
  | wrkey idx key => exact Laws.EncodesInRow.wrkey idx key
  | rdkey idx => exact Laws.EncodesInRow.rdkey idx
  | expand half => exact Laws.EncodesInRow.expand half
  | subst byte => exact Laws.EncodesInRow.subst byte
  | roundf idx half => exact Laws.EncodesInRow.roundf idx half
  | round idx block => exact Laws.EncodesInRow.round idx block
  | fperm block => exact Laws.EncodesInRow.fperm block

theorem inFormat_encode (i : Instr) : InFormat i.mnemonic (encode i) := by
  obtain ⟨r, hr, hm, hcovers⟩ := encodesInRow i
  exact hm ▸ (opcodeTable_fixesFormat hr).inFormat hcovers

/-! ### Commands, rows and formats -/

theorem exists_decode_iff_inFormat (w : Word) (m : Mnemonic) :
    (∃ i, decode w = some i ∧ i.mnemonic = m) ↔ InFormat m w := by
  simp only [decode_eq_some_iff]
  constructor
  · rintro ⟨i, rfl, rfl⟩
    exact inFormat_encode i
  · exact InFormat.exists_encode

theorem exists_covers_iff_inFormat (w : Word) (m : Mnemonic) :
    (∃ r ∈ opcodeTable, r.mnemonic = m ∧ r.covers w) ↔ InFormat m w := by
  constructor
  · rintro ⟨r, hr, rfl, hcovers⟩
    exact (opcodeTable_fixesFormat hr).inFormat hcovers
  · intro h
    obtain ⟨i, rfl, rfl⟩ := h.exists_encode
    exact encodesInRow i

/-- Two rows that cover one word have the opcode of the word, and an opcode has one row. -/
theorem row_unique {w : Word} {r q : OpcodeRow} (hr : r ∈ opcodeTable) (hq : q ∈ opcodeTable) (hrw : r.covers w)
    (hqw : q.covers w) : r = q := by
  have oneRow : ∀ r ∈ opcodeTable, ∀ q ∈ opcodeTable, r.mnemonic.opcode = q.mnemonic.opcode → r = q := by decide
  have hop := ((opcodeTable_fixesFormat hr).inFormat hrw).op
  exact oneRow r hr q hq (hop.symm.trans ((opcodeTable_fixesFormat hq).inFormat hqw).op)

end Sys2Proof
end

section
/-! The illegal words (30_encoding.md R55, R56) are those in no mnemonic's format. -/

namespace Sys2Proof.Machine

/-- An opcode that is not reserved is a mnemonic's (R52, R56). -/
theorem exists_opcode_of_le {op : BitVec 4} (h : op.toNat ≤ 0xA) : ∃ m : Mnemonic, op = m.opcode := by
  have inTable : ∀ op : BitVec 4, op.toNat ≤ 0xA → ∃ r ∈ opcodeTable, op = r.mnemonic.opcode := by decide
  obtain ⟨r, -, hop⟩ := inTable op h
  exact ⟨r.mnemonic, hop⟩

/-- The bits of `D` from bit `k` on are zero when `D` is below `2 ^ k`. -/
theorem extractLsb'_eq_zero_iff {k l : Nat} (h : k + l = 12) (w : Word) :
    w.extractLsb' k l = 0 ↔ (dField w).toNat < 2 ^ k := by
  have hd : (w.extractLsb' k l).toNat = (dField w).toNat / 2 ^ k := by
    rw [dField, BitVec.extractLsb'_toNat, BitVec.extractLsb'_toNat, ← h, Nat.pow_add, Nat.mod_mul_right_div_self,
      Nat.shiftRight_eq_div_pow, Nat.shiftRight_zero]
  rw [← BitVec.toNat_inj, hd]
  simp [Nat.div_eq_zero_iff]

theorem illegalWord_of_reserved {w : Word} (h : 0xA < (opField w).toNat) : illegalWord w = true := by
  unfold illegalWord
  split
  case h_12 => simp
  all_goals
    rename_i hop
    change (opField w).toNat = _ at hop
    omega

/-- The must-be-zero bits of a mnemonic: `Z`, `N` where it is no operand, and `D` above the operand. -/
theorem illegalWord_of_opcode {w : Word} {m : Mnemonic} (h : opField w = m.opcode) :
    illegalWord w =
      (zField w != 0 || (!m.takesN && nField w != 0) || w.extractLsb' m.dWidth (12 - m.dWidth) != 0) := by
  have hop : w.extractLsb' 28 4 = m.opcode := h
  cases m <;>
    simp [illegalWord, hop, Mnemonic.opcode, Mnemonic.dWidth, Mnemonic.takesN, zField, nField, Bool.or_assoc] <;>
    rfl

theorem illegalWord_of_z {w : Word} (h : zField w ≠ 0) : illegalWord w = true := by
  unfold illegalWord
  exact Bool.or_eq_true_iff.2 (.inl (bne_iff_ne.2 h))

theorem illegalWord_of_n (m : Mnemonic) {w : Word} (hop : opField w = m.opcode) (hm : m.takesN = false)
    (h : nField w ≠ 0) : illegalWord w = true := by
  rw [illegalWord_of_opcode hop, hm, bne_iff_ne.2 h]
  simp

theorem illegalWord_of_d (m : Mnemonic) {w : Word} (hop : opField w = m.opcode)
    (h : w.extractLsb' m.dWidth (12 - m.dWidth) ≠ 0) : illegalWord w = true := by
  rw [illegalWord_of_opcode hop, bne_iff_ne.2 h, Bool.or_true]

theorem illegalWord_eq_false_iff_inFormat {w : Word} {m : Mnemonic} (h : opField w = m.opcode) :
    illegalWord w = false ↔ InFormat m w := by
  have hd := extractLsb'_eq_zero_iff (Nat.add_sub_of_le (dWidth_le m)) w
  rw [illegalWord_of_opcode h]
  simp only [Bool.or_eq_false_iff, Bool.and_eq_false_imp, Bool.not_eq_true', bne_eq_false_iff_eq, hd]
  exact ⟨fun ⟨⟨hz, hn⟩, hd⟩ => ⟨h, hn, hz, hd⟩, fun ⟨_, hn, hz, hd⟩ => ⟨⟨hz, hn⟩, hd⟩⟩

theorem illegalWord_eq_false_iff (w : Word) : illegalWord w = false ↔ ∃ m, InFormat m w := by
  constructor
  · intro h
    have hle : (opField w).toNat ≤ 0xA := by
      by_contra hgt
      simp [illegalWord_of_reserved (Nat.lt_of_not_le hgt)] at h
    obtain ⟨m, hop⟩ := exists_opcode_of_le hle
    exact ⟨m, (illegalWord_eq_false_iff_inFormat hop).1 h⟩
  · rintro ⟨m, hm⟩
    exact (illegalWord_eq_false_iff_inFormat hm.op).2 hm

theorem decode_ne_none_iff_inFormat (w : Word) : decode w ≠ none ↔ ∃ m, InFormat m w := by
  simp only [Option.ne_none_iff_exists', ← exists_decode_iff_inFormat]
  exact ⟨fun ⟨i, hi⟩ => ⟨i.mnemonic, i, hi, rfl⟩, fun ⟨_, i, hi, _⟩ => ⟨i, hi⟩⟩

theorem decode_eq_none_iff_illegalWord (w : Word) : decode w = none ↔ illegalWord w = true := by
  rw [← not_iff_not, Bool.not_eq_true, illegalWord_eq_false_iff]
  exact decode_ne_none_iff_inFormat w

/-- An illegal word raises `ILLEGAL_CMD` and has no other effect (R55, R56, R94). -/
theorem runWord_onlyRaises_of_illegalWord {w : Word} (h : illegalWord w = true) (s : State) :
    ∃ t, runWord w s = .next t ∧ OnlyRaises .illegalCmd s t :=
  ⟨_, runWord_of_illegal ((decode_eq_none_iff_illegalWord w).2 h) s, ⟨rfl, rfl, rfl, rfl, rfl⟩, ⟨rfl, rfl⟩, rfl⟩

/-! ### The statements about decoding -/

/-- Settles O6. -/
theorem decodeOfEncodeIsTheCommand : Obligations.DecodeOfEncodeIsTheCommand :=
  fun i _ => decode_encode i

/-- Settles O7: the rows, the commands and the legal words of a mnemonic are the words in its format. -/
theorem decodeAgreesWithTheOpcodeTable : Obligations.DecodeAgreesWithTheOpcodeTable := by
  refine ⟨decode_eq_none_iff_illegalWord, fun w i => encode_of_decode, fun w m => ?_, fun w r q => row_unique,
    fun w hnone => ?_⟩
  · rw [exists_decode_iff_inFormat, exists_covers_iff_inFormat]
  · by_contra hlegal
    obtain ⟨m, hm⟩ := (decode_ne_none_iff_inFormat w).1 hlegal
    obtain ⟨r, hr, -, hcovers⟩ := (exists_covers_iff_inFormat w m).2 hm
    exact hnone r hr hcovers

/-- Settles O5. -/
theorem writtenWordsDecode : Obligations.WrittenWordsDecode := by
  unfold Obligations.WrittenWordsDecode
  decide

/-- Settles O9. -/
theorem reservedOpcodesRaiseIllegal : Obligations.ReservedOpcodesRaiseIllegal :=
  fun _ s h => runWord_onlyRaises_of_illegalWord (illegalWord_of_reserved h) s

/-- Settles O10: each listed bit is one of `illegalWord`'s; the formats of the three commands fix no bit but `OP` and
`Z`. -/
theorem mustBeZeroBitsRaiseIllegal : Obligations.MustBeZeroBitsRaiseIllegal := by
  refine ⟨fun w s hbits => runWord_onlyRaises_of_illegalWord ?_ s, fun w hz hop => ?_⟩
  · obtain hz | ⟨hop, hn | hd⟩ | ⟨hop, hd⟩ | ⟨hop, hd⟩ | ⟨hop, hd⟩ | ⟨hop, hn | hd⟩ | ⟨hop, hn | hd⟩ | ⟨hop, hd⟩ |
      ⟨hop, hn⟩ := hbits
    · exact illegalWord_of_z hz
    · exact illegalWord_of_n .nop hop rfl hn
    · exact illegalWord_of_d .nop hop hd
    · exact illegalWord_of_d .keygen hop hd
    · exact illegalWord_of_d .wrkey hop hd
    · exact illegalWord_of_d .rdkey hop hd
    · exact illegalWord_of_n .expand hop rfl hn
    · exact illegalWord_of_d .expand hop hd
    · exact illegalWord_of_n .subst hop rfl hn
    · exact illegalWord_of_d .subst hop hd
    · exact illegalWord_of_d .roundf hop hd
    · exact illegalWord_of_n .fperm hop rfl hn
  · rw [decode_ne_none_iff_inFormat]
    have hd : (dField w).toNat < 2 ^ 12 := (dField w).isLt
    obtain h | h | h := hop
    · exact ⟨.encrypt, h, nofun, hz, hd⟩
    · exact ⟨.decrypt, h, nofun, hz, hd⟩
    · exact ⟨.round, h, nofun, hz, hd⟩

end Sys2Proof.Machine
end

section
/-! The assembler (30_encoding.md R62, R63): the word of each line, and what is refused. -/

namespace Sys2Proof.Machine

/-! ### Words as shifts (R62) -/

theorem formatC_eq_or (op n : BitVec 4) (d : BitVec 12) :
    formatC op n d = (op.setWidth 32 <<< 28) ||| (n.setWidth 32 <<< 24) ||| d.setWidth 32 := by
  apply BitVec.eq_of_getLsbD_eq
  intro j hj
  rw [formatC_getLsbD]
  have hge {width k : Nat} (v : BitVec width) (h : width ≤ k) : v.getLsbD k = false := v.getLsbD_of_ge k h
  simp only [BitVec.getLsbD_or, BitVec.getLsbD_shiftLeft, BitVec.getLsbD_setWidth, hj, decide_true, Bool.true_and]
  by_cases h12 : j < 12
  · simp [h12, show j < 28 by omega, show j < 24 by omega]
  · by_cases h24 : j < 24
    · simp [h12, h24, show j < 28 by omega, hge d (Nat.le_of_not_lt h12)]
    · by_cases h28 : j < 28
      · simp [h12, h24, h28, hge d (Nat.le_of_not_lt h12), show j - 24 < 32 by omega]
      · simp [h12, h24, h28, hge d (Nat.le_of_not_lt h12), hge n (show 4 ≤ j - 24 by omega), show j - 28 < 32 by omega]

/-- An operand narrower than `D` stands in its low bits. -/
theorem formatC_setWidth_eq_or (op n : BitVec 4) {width : Nat} (v : BitVec width) (h : width ≤ 12) :
    formatC op n (v.setWidth 12) = (op.setWidth 32 <<< 28) ||| (n.setWidth 32 <<< 24) ||| v.setWidth 32 := by
  rw [formatC_eq_or]
  congr 1
  apply BitVec.eq_of_toNat_eq
  have hv : v.toNat < 2 ^ 12 := Nat.lt_of_lt_of_le v.isLt (Nat.pow_le_pow_right (by decide) h)
  rw [BitVec.toNat_setWidth, BitVec.toNat_setWidth, BitVec.toNat_setWidth, Nat.mod_eq_of_lt hv]

/-! ### Lines (R62) -/

theorem operandsFit_iff (widths vs : List Nat) :
    operandsFit widths vs = true ↔ List.Forall₂ (fun width v => v < 2 ^ width) widths vs := by
  induction widths generalizing vs with
  | nil => cases vs <;> simp [operandsFit]
  | cons width widths ih => cases vs <;> simp [operandsFit, fitsField, ih]

theorem buildInstr_operands (i : Instr) : buildInstr i.mnemonic i.operands = some i := by
  cases i <;> simp [buildInstr, Instr.mnemonic, Instr.operands]

theorem assembleLine_of_not_wellFormed {line : Source} (h : line.wellFormed = false) : assembleLine line = none := by
  simp [assembleLine, h]

theorem assembleLine_instr (i : Instr) : assembleLine (.command i.mnemonic i.operands) = some [encode i] := by
  have hwf : (Source.command i.mnemonic i.operands).wellFormed = true := Laws.instr_wellFormed i
  simp [assembleLine, hwf, buildInstr_operands]

/-- A command line that is not refused has an operand for each field, fitting it. -/
theorem operands_fit_of_assembleLine_ne_none {m : Mnemonic} {vs : List Nat}
    (h : assembleLine (.command m vs) ≠ none) : List.Forall₂ (fun width v => v < 2 ^ width) m.operandWidths vs := by
  by_contra hfit
  rw [← operandsFit_iff, Bool.not_eq_true] at hfit
  exact h (assembleLine_of_not_wellFormed hfit)

theorem assembleLine_of_length_ne {m : Mnemonic} {vs : List Nat} (h : vs.length ≠ m.operandWidths.length) :
    assembleLine (.command m vs) = none := by
  by_contra hne
  exact h (operands_fit_of_assembleLine_ne_none hne).length_eq.symm

theorem assembleLine_of_too_wide {m : Mnemonic} {vs : List Nat} {k : Nat} (hv : k < vs.length)
    (hw : k < m.operandWidths.length) (h : 2 ^ m.operandWidths[k] ≤ vs[k]) : assembleLine (.command m vs) = none := by
  by_contra hne
  have hfit := (operands_fit_of_assembleLine_ne_none hne).get hw hv
  exact absurd h (Nat.not_le.2 hfit)

/-- Settles O11. -/
theorem encoderWritesTheSyntaxTable : Obligations.EncoderWritesTheSyntaxTable := by
  refine ⟨⟨by decide, ?_, ?_, ?_, ?_, ?_, ?_, ?_, ?_, ?_, ?_⟩, assembleLine_instr,
    fun m vs => assembleLine_of_length_ne, fun m vs k => assembleLine_of_too_wide, by decide, by decide⟩
  · exact fun n key => formatC_setWidth_eq_or 1 n key (by decide)
  · exact fun n b => formatC_eq_or 2 n b
  · exact fun n b => formatC_eq_or 3 n b
  · exact fun n k => formatC_setWidth_eq_or 4 n k (by decide)
  · exact fun n => (formatC_eq_or 5 n 0).trans (BitVec.or_zero)
  · intro h
    simpa [encode] using formatC_setWidth_eq_or 6 0 h (by decide)
  · intro y
    simpa [encode] using formatC_setWidth_eq_or 7 0 y (by decide)
  · exact fun n h => formatC_setWidth_eq_or 8 n h (by decide)
  · exact fun n b => formatC_eq_or 9 n b
  · intro b
    simpa [encode] using formatC_eq_or 0xA 0 b

end Sys2Proof.Machine
end

section
/-! `LOADKEYS` (30_encoding.md R63): its expansion, and what running the expansion leaves. -/

namespace Sys2Proof.Machine

/-! ### The expansion -/

theorem loadKeysFrom_eq_zipIdx (first : Nat) (keys : List RoundKey) :
    loadKeysFrom first keys = (keys.zipIdx first).map fun p => .wrkey (BitVec.ofNat 4 p.2) p.1 := by
  induction keys generalizing first with
  | nil => rfl
  | cons k ks ih => rw [loadKeysFrom, ih, List.zipIdx_cons, List.map_cons]

theorem map_ofNat_toNat (keys : List RoundKey) : (keys.map BitVec.toNat).map (BitVec.ofNat 8) = keys := by
  simp [Function.comp_def]

theorem loadKeys_wellFormed {keys : List RoundKey} (hpos : 1 ≤ keys.length) (hle : keys.length ≤ 9) :
    (Source.loadKeys (keys.map BitVec.toNat)).wellFormed = true := by
  have hfit : (keys.map BitVec.toNat).all (fitsField 8) = true := by
    simp only [List.all_map, List.all_eq_true]
    exact fun k _ => decide_eq_true k.isLt
  simp only [Source.wellFormed, List.length_map, hpos, hle, hfit, decide_true, Bool.and_self]

theorem assembleLine_loadKeys {keys : List RoundKey} (hpos : 1 ≤ keys.length) (hle : keys.length ≤ 9) :
    assembleLine (.loadKeys (keys.map BitVec.toNat)) = some ((loadKeys keys).map encode) := by
  rw [assembleLine, if_pos (loadKeys_wellFormed hpos hle), map_ofNat_toNat]

theorem assembleLine_loadKeys_of_length {vs : List Nat} (h : vs.length = 0 ∨ 9 < vs.length) :
    assembleLine (.loadKeys vs) = none := by
  refine assembleLine_of_not_wellFormed ?_
  obtain h | h := h
  · simp [Source.wellFormed, h]
  · simp [Source.wellFormed, Nat.not_le.2 h]

/-! ### The run -/

/-- From `s` to `t` the keys went to the entries from `first` on, and nothing else changed but the status. -/
structure LoadedFrom (first : Nat) (keys : List RoundKey) (s t : State) : Prop where
  loaded : ∀ (j : Fin 9) (i : Nat) (h : i < keys.length), j.val = first + i →
    t.rk[j] = keys[i] ∧ keyValid t j.val = true
  kept : ∀ j : Fin 9, j.val < first ∨ first + keys.length ≤ j.val →
    t.rk[j] = s.rk[j] ∧ keyValid t j.val = keyValid s j.val
  result : t.result = s.result
  /-- each `WRKEY` clears the code of the command before it -/
  err : s.err = 0 ∨ keys ≠ [] → t.err = 0

theorem LoadedFrom.nil (first : Nat) (s : State) : LoadedFrom first [] s s where
  loaded := fun _ _ h => absurd h (Nat.not_lt_zero _)
  kept := fun _ _ => ⟨rfl, rfl⟩
  result := rfl
  err := fun h => h.resolve_right fun hne => hne rfl

/-- One `WRKEY`, then the rest. -/
theorem LoadedFrom.cons {first : Nat} (hfirst : first < 9) {k : RoundKey} {ks : List RoundKey} {s t : State}
    (h : LoadedFrom (first + 1) ks (complete .ok (writeKey ⟨first, hfirst⟩ k s)) t) :
    LoadedFrom first (k :: ks) s t where
  loaded := by
    intro j i hi hj
    cases i with
    | zero =>
      obtain rfl : j = ⟨first, hfirst⟩ := Fin.ext hj
      obtain ⟨hrk, hv⟩ := h.kept ⟨first, hfirst⟩ (.inl (Nat.lt_succ_self first))
      exact ⟨hrk.trans (by simp), hv.trans (by simp)⟩
    | succ i => exact h.loaded j i (Nat.lt_of_succ_lt_succ hi) (by omega)
  kept := by
    intro j hj
    rw [List.length_cons] at hj
    have hne : j.val ≠ first := by omega
    obtain ⟨hrk, hv⟩ := h.kept j (by omega)
    exact ⟨hrk.trans (by simp [Vector.getElem_set_ne, hne.symm]), hv.trans (by simp [hne])⟩
  result := h.result
  err := fun _ => h.err (.inl rfl)

theorem runWord_encode (i : Instr) (s : State) : runWord (encode i) s = exec i s :=
  runWord_of_decode (decode_encode i) s

theorem serialRun_loadKeysFrom (keys : List RoundKey) : ∀ (first : Nat) (s : State), first + keys.length ≤ 9 →
    ∃ t, serialRun ((loadKeysFrom first keys).map encode) s = .next t ∧ LoadedFrom first keys s t := by
  induction keys with
  | nil => exact fun first s _ => ⟨s, rfl, .nil first s⟩
  | cons k ks ih =>
    intro first s hle
    rw [List.length_cons] at hle
    have hfirst : first < 9 := by omega
    have hrun := (runWord_encode _ s).trans (exec_wrkey_ofNat ⟨first, hfirst⟩ k s)
    obtain ⟨t, ht, hloaded⟩ := ih (first + 1) (complete .ok (writeKey ⟨first, hfirst⟩ k s)) (by omega)
    exact ⟨t, (serialRun_cons hrun).trans ht, hloaded.cons hfirst⟩

/-- Settles O12: by induction on the keys, the first entry left free. -/
theorem loadKeysWritesTheSequence : Obligations.LoadKeysWritesTheSequence := by
  refine ⟨fun keys ⟨hpos, hle⟩ => ?_, fun vs => assembleLine_loadKeys_of_length, fun keys s ⟨hpos, hle⟩ => ?_⟩
  · rw [assembleLine_loadKeys hpos hle, loadKeys, loadKeysFrom_eq_zipIdx, List.map_map]
    rfl
  · obtain ⟨t, ht, h⟩ := serialRun_loadKeysFrom keys 0 s (by omega)
    refine ⟨t, ht, fun j hj => h.loaded j j.val hj (Nat.zero_add _).symm, fun j hj => h.kept j (.inr (by omega)),
      h.result, h.err (.inr (List.ne_nil_of_length_pos hpos))⟩

end Sys2Proof.Machine
end

section
/-! `NOP` is the only command that does nothing (30_encoding.md R58): every other word shows in some state. -/

namespace Sys2Proof.Machine

theorem encode_nop : encode .nop = 0 := by decide

theorem decode_nop_iff (w : Word) : decode w = some .nop ↔ w = 0 := by
  rw [decode_eq_some_iff, encode_nop, eq_comm]

theorem runWord_zero (s : State) : runWord 0 s = .next (complete .ok s) :=
  runWord_of_decode ((decode_nop_iff 0).2 rfl) s

theorem eq_nop_of_opcode {i : Instr} (h : i.mnemonic.opcode = 0) : i = .nop := by
  cases i
  case nop => rfl
  all_goals simp [Instr.mnemonic, Mnemonic.opcode] at h

/-- The only command of the opcode 0 is `NOP`. -/
theorem decode_eq_none_of_opField_zero {w : Word} (hop : opField w = 0) (hw : w ≠ 0) : decode w = none := by
  rw [Option.eq_none_iff_forall_ne_some]
  intro i hi
  have hcode : i.mnemonic.opcode = 0 := by rw [← opField_encode, encode_of_decode hi, hop]
  obtain rfl := eq_nop_of_opcode hcode
  exact hw ((decode_nop_iff w).1 hi)

/-! ### What a host sees -/

/-- The idle state of the reset with these valid bits and this `RESULT`. -/
def idleWith (rkv : BitVec 9) (result : Block) : State := { State.reset with rkv := rkv, result := result }

theorem idleWith_inv (rkv : BitVec 9) (result : Block) : (idleWith rkv result).Inv := reset_inv

/-- In the state the answer is a next state in which a host sees something else than after `NOP`. -/
def ShowsIn (answer : State → Answer) (s : State) : Prop :=
  ∃ t, answer s = .next t ∧ t.visible ≠ (complete .ok s).visible

section Shows
variable {answer : State → Answer} {s : State}

theorem ShowsIn.of_error {c : Completion} {u : State} (h : answer s = .next (complete c u)) (hc : c ≠ .ok) :
    ShowsIn answer s := by
  refine ⟨_, h, fun hvis => hc ?_⟩
  have hcode : c.code = Completion.ok.code := congrArg Visible.err hvis
  revert hcode
  cases c <;> decide

theorem ShowsIn.of_rkv {u : State} (h : answer s = .next (complete .ok u)) (hne : u.rkv ≠ s.rkv) :
    ShowsIn answer s :=
  ⟨_, h, fun hvis => hne (congrArg Visible.rkv hvis)⟩

theorem ShowsIn.of_result {u : State} (h : answer s = .next (complete .ok u)) (hne : u.result ≠ s.result) :
    ShowsIn answer s :=
  ⟨_, h, fun hvis => hne (congrArg Visible.result hvis)⟩

end Shows

/-- A command that returns a value shows where `RESULT` holds another value before. -/
theorem shows_of_returnWith {answer : State → Answer} {α : Type} {w : Nat} (o : Except Completion α) (f : α → BitVec w)
    (ho : o ≠ .error .ok) (h : ∀ r, answer (idleWith 0 r) = returnWith o f (idleWith 0 r)) :
    ∃ v r, ShowsIn answer (idleWith v r) := by
  cases o with
  | error c => exact ⟨0, 0, .of_error (h 0) fun hc => ho (congrArg _ hc)⟩
  | ok a => exact ⟨0, (f a).setWidth 12 + 1, .of_result (h _) (left_eq_add.not.2 (by decide))⟩

theorem keyOperand_ne_error_ok (idx : Index) (s : State) : keyOperand idx s ≠ .error .ok := by
  simp [keyOperand_error_iff, Ne]

theorem roundKeys_ne_error_ok (n : Index) (s : State) : roundKeys n s ≠ .error .ok := by
  simp [roundKeys_error_iff, Ne]

/-- Every command but `NOP` shows in some idle state. -/
theorem exec_shows {i : Instr} (hi : i ≠ .nop) : ∃ v r, ShowsIn (exec i) (idleWith v r) := by
  cases i with
  | nop => exact absurd rfl hi
  | keygen n key =>
    by_cases hn : n.toNat ≤ 9
    · exact ⟨validBelow n.toNat + 1, 0, .of_rkv (exec_keygen_of_le hn key _) (left_eq_add.not.2 (by decide))⟩
    · exact ⟨0, 0, .of_error (exec_keygen_of_gt (Nat.lt_of_not_le hn) key _) (by decide)⟩
  | wrkey idx key =>
    cases hidx : keyIndex idx with
    | ok j =>
      refine ⟨0, 0, .of_rkv (exec_wrkey_of_ok hidx key _) fun hrkv => ?_⟩
      have hvalid : keyValid (writeKey j key (idleWith 0 0)) j.val = true := by simp
      rw [keyValid, hrkv] at hvalid
      simp [idleWith] at hvalid
    | error e =>
      exact ⟨0, 0, .of_error (exec_wrkey_of_gt ((keyIndex_error_iff idx e).1 hidx).1 key _) (by decide)⟩
  | encrypt n p => exact shows_of_returnWith _ (enc p) (roundKeys_ne_error_ok n (idleWith 0 0)) fun _ => rfl
  | decrypt n c => exact shows_of_returnWith _ (dec c) (roundKeys_ne_error_ok n (idleWith 0 0)) fun _ => rfl
  | rdkey idx => exact shows_of_returnWith _ id (keyOperand_ne_error_ok idx (idleWith 0 0)) fun _ => rfl
  | roundf idx half =>
    exact shows_of_returnWith _ (feistel half) (keyOperand_ne_error_ok idx (idleWith 0 0)) fun _ => rfl
  | round idx block =>
    exact shows_of_returnWith _ (feistelRound block) (keyOperand_ne_error_ok idx (idleWith 0 0)) fun _ => rfl
  | expand half => exact shows_of_returnWith (.ok half) expand nofun fun _ => rfl
  | subst byte => exact shows_of_returnWith (.ok byte) sbox nofun fun _ => rfl
  | fperm block => exact shows_of_returnWith (.ok block) finalPerm nofun fun _ => rfl

/-- Every word but 0 shows in some idle state. -/
theorem runWord_shows {w : Word} (hw : w ≠ 0) : ∃ v r, ShowsIn (runWord w) (idleWith v r) := by
  cases hd : decode w with
  | none => exact ⟨0, 0, .of_error (runWord_of_illegal hd _) (by decide)⟩
  | some i =>
    have hi : i ≠ .nop := by
      rintro rfl
      exact hw ((decode_nop_iff w).1 hd)
    obtain ⟨v, r, t, ht, hvis⟩ := exec_shows hi
    exact ⟨v, r, t, (runWord_of_decode hd _).trans ht, hvis⟩

/-- Settles O8. -/
theorem theOneNopWord : Obligations.TheOneNopWord := by
  refine ⟨decode_nop_iff, fun w => decode_eq_none_of_opField_zero, fun s => ?_, fun w hw => ?_⟩
  · exact ⟨_, runWord_zero s, ⟨rfl, rfl, rfl, rfl, rfl⟩, ⟨rfl, rfl⟩, rfl⟩
  · obtain ⟨v, r, t, ht, hvis⟩ := runWord_shows hw
    exact ⟨idleWith v r, t, _, idleWith_inv v r, ht, runWord_zero _, hvis⟩

end Sys2Proof.Machine
end

section
/-! The bit expander (40_round_datapath.md R64) bit by bit, and the substitution (R65, R66) by the tables of the spec
(R25). -/

namespace Sys2Proof.Machine

/-! ### The expander -/

/-- Which bit of the half-block stands in each bit of the expansion, bit 0 first (R64). -/
def expandSource : Fin 8 → Fin 6 := ![0, 1, 3, 2, 3, 2, 4, 5]

theorem expand_getLsbD (h : HalfBlock) (j : Fin 8) : (expand h).getLsbD j = h.getLsbD (expandSource j) := by
  fin_cases j <;> simp [expand, expandSource]

/-- The expansion written out, the most significant bit first. -/
theorem expand_eq_bits (h : HalfBlock) :
    expand h =
      BitVec.ofBool (h.getLsbD 5) ++ BitVec.ofBool (h.getLsbD 4) ++ BitVec.ofBool (h.getLsbD 2) ++
        BitVec.ofBool (h.getLsbD 3) ++ BitVec.ofBool (h.getLsbD 2) ++ BitVec.ofBool (h.getLsbD 3) ++
        BitVec.ofBool (h.getLsbD 1) ++ BitVec.ofBool (h.getLsbD 0) := by
  apply BitVec.eq_of_getLsbD_eq
  intro j hj
  rw [expand_getLsbD h ⟨j, hj⟩]
  change _ = BitVec.getLsbD (w := 1 + 1 + 1 + 1 + 1 + 1 + 1 + 1) _ j
  simp only [BitVec.getLsbD_append, BitVec.getLsbD_ofBool]
  interval_cases j <;> rfl

/-- The expansion written out as `RESULT` holds it (R24, R72). -/
theorem expand_setWidth_eq_bits (h : HalfBlock) :
    (expand h).setWidth 12 =
      0#4 ++ BitVec.ofBool (h.getLsbD 5) ++ BitVec.ofBool (h.getLsbD 4) ++ BitVec.ofBool (h.getLsbD 2) ++
        BitVec.ofBool (h.getLsbD 3) ++ BitVec.ofBool (h.getLsbD 2) ++ BitVec.ofBool (h.getLsbD 3) ++
        BitVec.ofBool (h.getLsbD 1) ++ BitVec.ofBool (h.getLsbD 0) := by
  apply BitVec.eq_of_toNat_eq
  rw [BitVec.toNat_setWidth_of_le (by decide), expand_eq_bits]
  simp only [BitVec.toNat_append, BitVec.toNat_zero, Nat.zero_shiftLeft, Nat.zero_or]

/-- Every bit of the half-block stands somewhere in the expansion. -/
theorem expandSource_surjective : Function.Surjective expandSource := by decide

theorem expand_injective : Function.Injective expand := by
  intro h g heq
  apply BitVec.eq_of_getLsbD_eq
  intro i hi
  obtain ⟨j, hj⟩ := expandSource_surjective ⟨i, hi⟩
  have hbit : (expand h).getLsbD j = (expand g).getLsbD j := by rw [heq]
  rwa [expand_getLsbD, expand_getLsbD, hj] at hbit

/-- Bits 2 and 4 of an expansion are the same bit of the half-block. -/
theorem expand_bit_two_eq_bit_four (h : HalfBlock) : (expand h).getLsbD 2 = (expand h).getLsbD 4 :=
  (expand_getLsbD h 2).trans (expand_getLsbD h 4).symm

/-- Settles O13: each bit of the expansion is a bit of the half-block, each of those occurs, and one occurs twice. -/
theorem expandIsTheInjectiveBitMap : Obligations.ExpandIsTheInjectiveBitMap := by
  refine ⟨expand_eq_bits, fun _ => rfl, fun _ _ heq => expand_injective heq, ⟨0x04, fun h hout => ?_⟩, by decide⟩
  have hbits := expand_bit_two_eq_bit_four h
  rw [hout] at hbits
  revert hbits
  decide

/-! ### The tables -/

theorem lookupS1_toNat (j : BitVec 4) :
    (lookupS1 j).toNat = [5, 2, 1, 6, 3, 4, 7, 0, 1, 4, 6, 2, 0, 7, 5, 3].getD j.toNat 0 := by
  revert j
  decide

theorem lookupS2_toNat (j : BitVec 4) :
    (lookupS2 j).toNat = [4, 0, 6, 5, 7, 1, 3, 2, 5, 3, 0, 7, 6, 2, 1, 4].getD j.toNat 0 := by
  revert j
  decide

/-- The output of the left table stands above the three bits of the right one (R66). -/
theorem sbox_toNat (y : BitVec 8) :
    (sbox y).toNat = (lookupS1 (y.extractLsb' 4 4)).toNat * 8 + (lookupS2 (y.extractLsb' 0 4)).toNat := by
  have hlow := (lookupS2 (y.extractLsb' 0 4)).isLt
  rw [sbox, BitVec.toNat_append, ← Nat.shiftLeft_add_eq_or_of_lt hlow, Nat.shiftLeft_eq]

theorem sbox_toNat_eq_tables (y : BitVec 8) :
    (sbox y).toNat =
      [5, 2, 1, 6, 3, 4, 7, 0, 1, 4, 6, 2, 0, 7, 5, 3].getD (y.toNat / 16) 0 * 8 +
        [4, 0, 6, 5, 7, 1, 3, 2, 5, 3, 0, 7, 6, 2, 1, 4].getD (y.toNat % 16) 0 := by
  have hleft : (y.extractLsb' 4 4).toNat = y.toNat / 16 := by
    have hy := y.isLt
    rw [BitVec.extractLsb'_toNat, Nat.shiftRight_eq_div_pow]
    omega
  have hright : (y.extractLsb' 0 4).toNat = y.toNat % 16 := BitVec.extractLsb'_toNat 0 4 y
  rw [sbox_toNat, lookupS1_toNat, lookupS2_toNat, hleft, hright]

end Sys2Proof.Machine
end

section
/-! The Feistel round (R68) and the final permutation (R69) on the halves of a block. -/

namespace Sys2Proof.Machine

/-! ### Halves -/

@[simp] theorem leftHalf_append (l r : HalfBlock) : leftHalf (l ++ r) = l :=
  BitVec.extractLsb'_append_eq_left

@[simp] theorem rightHalf_append (l r : HalfBlock) : rightHalf (l ++ r) = r :=
  BitVec.extractLsb'_append_eq_right

@[simp] theorem leftHalf_append_rightHalf (b : Block) : leftHalf b ++ rightHalf b = b :=
  (BitVec.extractLsb'_append_extractLsb'_eq_extractLsb' rfl).trans BitVec.extractLsb'_eq_self

/-! ### One round -/

@[simp] theorem leftHalf_feistelRound (b : Block) (k : RoundKey) : leftHalf (feistelRound b k) = rightHalf b :=
  leftHalf_append _ _

@[simp] theorem rightHalf_feistelRound (b : Block) (k : RoundKey) :
    rightHalf (feistelRound b k) = leftHalf b ^^^ feistel (rightHalf b) k :=
  rightHalf_append _ _

/-- The inverse of the round with the key (R68). -/
def feistelUnround (b : Block) (k : RoundKey) : Block := (rightHalf b ^^^ feistel (leftHalf b) k) ++ leftHalf b

/-- The right half went through the round unchanged, so the mix of it cancels. -/
theorem feistelUnround_feistelRound (b : Block) (k : RoundKey) : feistelUnround (feistelRound b k) k = b := by
  rw [feistelUnround, leftHalf_feistelRound, rightHalf_feistelRound, BitVec.xor_assoc, BitVec.xor_self,
    BitVec.xor_zero, leftHalf_append_rightHalf]

theorem feistelRound_feistelUnround (b : Block) (k : RoundKey) : feistelRound (feistelUnround b k) k = b := by
  rw [feistelRound, feistelUnround, leftHalf_append, rightHalf_append, BitVec.xor_assoc, BitVec.xor_self,
    BitVec.xor_zero, leftHalf_append_rightHalf]

/-- Settles O14: twice the round with 0x65 takes 0x726 to 0x616. -/
theorem feistelRoundIsABijection : Obligations.FeistelRoundIsABijection :=
  ⟨fun s k => ⟨leftHalf_feistelRound s k, rightHalf_feistelRound s k⟩, feistelUnround_feistelRound,
    feistelRound_feistelUnround, ⟨0x726, 0x65, by decide⟩, by decide⟩

/-! ### The final permutation -/

theorem finalPerm_finalPerm (b : Block) : finalPerm (finalPerm b) = b := by
  rw [finalPerm, finalPerm, leftHalf_append, rightHalf_append, leftHalf_append_rightHalf]

theorem finalPerm_eq_self {b : Block} (h : rightHalf b = leftHalf b) : finalPerm b = b := by
  conv_rhs => rw [← leftHalf_append_rightHalf b]
  rw [finalPerm, h]

end Sys2Proof.Machine
end

section
/-! The diagnostic commands (40_round_datapath.md R72 to R76): how each completes, which words are theirs, and the
examples of the rules. -/

namespace Sys2Proof.Machine

/-! ### How a command completes -/

/-- The answer is the next state of a command that returned `v` and did nothing else. -/
def Returns (a : Answer) (s : State) (v : Block) : Prop := ∃ t, a = .next t ∧ OnlyReturns v s t

/-- The answer is the next state of a command that completed with the error and did nothing else (R96). -/
def Raises (a : Answer) (s : State) (c : Completion) : Prop := ∃ t, a = .next t ∧ OnlyRaises c s t

theorem onlyReturns_complete (v : Block) (s : State) : OnlyReturns v s (complete .ok { s with result := v }) :=
  ⟨⟨rfl, rfl, rfl, rfl, rfl⟩, ⟨rfl, rfl⟩, rfl⟩

theorem onlyRaises_complete (c : Completion) (s : State) : OnlyRaises c s (complete c s) :=
  ⟨⟨rfl, rfl, rfl, rfl, rfl⟩, ⟨rfl, rfl⟩, rfl⟩

theorem OnlyReturns.result_eq {v : Block} {s t : State} (h : OnlyReturns v s t) : t.result = v := by
  obtain ⟨-, -, hresult⟩ := h
  exact hresult

/-- `RESULT` takes the value as a number: the zero extension loses nothing (R24). -/
theorem OnlyReturns.result_toNat {w : Nat} {v : BitVec w} {s t : State} (h : OnlyReturns (v.setWidth 12) s t)
    (hw : w ≤ 12) : t.result.toNat = v.toNat := by
  rw [h.result_eq, BitVec.toNat_setWidth_of_le hw]

/-- What an example states: only the value is read. -/
theorem Returns.exists_result {a : Answer} {s : State} {u v : Block} (h : Returns a s u) (hv : u = v) :
    ∃ t, a = .next t ∧ t.result = v := by
  obtain ⟨t, ht, hret⟩ := h
  exact ⟨t, ht, hret.result_eq.trans hv⟩

/-! ### The commands without operand checks (R72, R73, R76) -/

theorem exec_expand_returns (h : HalfBlock) (s : State) : Returns (exec (.expand h) s) s ((expand h).setWidth 12) :=
  ⟨_, exec_expand h s, onlyReturns_complete _ s⟩

theorem exec_subst_returns (y : BitVec 8) (s : State) : Returns (exec (.subst y) s) s ((sbox y).setWidth 12) :=
  ⟨_, exec_subst y s, onlyReturns_complete _ s⟩

theorem exec_fperm_returns (b : Block) (s : State) : Returns (exec (.fperm b) s) s (finalPerm b) := by
  rw [exec_fperm, BitVec.setWidth_eq]
  exact ⟨_, rfl, onlyReturns_complete _ s⟩

/-! ### The three outcomes of a command on one round key (R74, R75, R97) -/

section KeyOperand
variable {w : Nat} {s : State} (f : RoundKey → BitVec w)

theorem returnWith_key_returns {i : Fin 9} (h : keyValid s i.val = true) :
    Returns (returnWith (keyOperand (BitVec.ofNat 4 i.val) s) f s) s ((f s.rk[i]).setWidth 12) :=
  ⟨_, returnWith_ok (keyOperand_of_valid h) f s, onlyReturns_complete _ s⟩

theorem returnWith_key_raises_indexRange {idx : Index} (h : 8 < idx.toNat) :
    Raises (returnWith (keyOperand idx s) f s) s .indexRange :=
  ⟨_, returnWith_error (keyOperand_of_gt h) f s, onlyRaises_complete _ s⟩

theorem returnWith_key_raises_keyInvalid {i : Fin 9} (h : keyValid s i.val = false) :
    Raises (returnWith (keyOperand (BitVec.ofNat 4 i.val) s) f s) s .keyInvalid :=
  ⟨_, returnWith_error (keyOperand_of_invalid h) f s, onlyRaises_complete _ s⟩

end KeyOperand

theorem exec_roundf_returns {i : Fin 9} {s : State} (hv : keyValid s i.val = true) (h : HalfBlock) :
    Returns (exec (.roundf (BitVec.ofNat 4 i.val) h) s) s ((feistel h s.rk[i]).setWidth 12) :=
  returnWith_key_returns (feistel h) hv

theorem exec_round_returns {i : Fin 9} {s : State} (hv : keyValid s i.val = true) (b : Block) :
    Returns (exec (.round (BitVec.ofNat 4 i.val) b) s) s (feistelRound b s.rk[i]) := by
  rw [← (feistelRound b s.rk[i]).setWidth_eq]
  exact returnWith_key_returns (feistelRound b) hv

/-! ### Words -/

/-- An operand below `D`'s top bits follows the zeros of `Z` and of `D` without a gap (R54, R55). -/
theorem formatC_setWidth_getLsbD (op n : BitVec 4) {z width : Nat} (h : z + width = 24) (hw : width ≤ 12)
    (v : BitVec width) (j : Nat) :
    (formatC op n (v.setWidth 12)).getLsbD j = (op ++ n ++ 0#z ++ v).getLsbD j := by
  rw [formatC_getLsbD]
  simp only [BitVec.getLsbD_append, BitVec.getLsbD_setWidth, BitVec.getLsbD_zero]
  by_cases hv : j < width
  · simp [hv, show j < 12 by omega]
  · by_cases h24 : j < 24
    · simp [hv, h24, v.getLsbD_of_ge j (Nat.le_of_not_lt hv), show j - width < z by omega]
    · have hn : j - width - z = j - 24 := by omega
      by_cases h28 : j < 28
      · simp [hv, h24, h28, hn, show ¬ j < 12 by omega, show ¬ j - width < z by omega, show j - 24 < 4 by omega]
      · simp [hv, h24, h28, hn, show ¬ j < 12 by omega, show ¬ j - width < z by omega, show ¬ j - 24 < 4 by omega,
          show j - 24 - 4 = j - 28 by omega]

theorem decode_expand_word (h : HalfBlock) : decode (0x60#8 ++ 0#18 ++ h) = some (.expand h) :=
  (decode_eq_some_iff _ _).2
    (BitVec.eq_of_getLsbD_eq fun j _ => formatC_setWidth_getLsbD 0x6 0 (z := 18) rfl (by decide) h j)

theorem decode_subst_word (y : BitVec 8) : decode (0x70#8 ++ 0#16 ++ y) = some (.subst y) :=
  (decode_eq_some_iff _ _).2
    (BitVec.eq_of_getLsbD_eq fun j _ => formatC_setWidth_getLsbD 0x7 0 (z := 16) rfl (by decide) y j)

theorem decode_roundf_word (idx : Index) (h : HalfBlock) :
    decode (0x8#4 ++ idx ++ 0#18 ++ h) = some (.roundf idx h) :=
  (decode_eq_some_iff _ _).2
    (BitVec.eq_of_getLsbD_eq fun j _ => formatC_setWidth_getLsbD 0x8 idx (z := 18) rfl (by decide) h j)

/-- The digits of the word are the fields of format `C` in order. -/
theorem decode_round_word (idx : Index) (b : Block) : decode (0x9#4 ++ idx ++ 0#12 ++ b) = some (.round idx b) :=
  decode_encode (.round idx b)

theorem decode_fperm_word (b : Block) : decode (0xA#4 ++ 0#16 ++ b) = some (.fperm b) :=
  decode_encode (.fperm b)

/-! ### The statements -/

/-- Settles O23: the value is the bit map of the expander, zero-extended. -/
theorem expandCommandReturnsTheExpansion : Obligations.ExpandCommandReturnsTheExpansion := by
  refine ⟨fun h s => ?_, decode_expand_word, fun w s hop hbits => runWord_onlyRaises_of_illegalWord ?_ s, fun s => ?_⟩
  · obtain ⟨t, ht, hret⟩ := exec_expand_returns h s
    exact ⟨t, ht, (hret.result_toNat (by decide)).trans_le (Nat.le_of_lt_succ (expand h).isLt),
      expand_setWidth_eq_bits h ▸ hret⟩
  · obtain hn | hd | hz := hbits
    · exact illegalWord_of_n .expand hop rfl hn
    · exact illegalWord_of_d .expand hop hd
    · exact illegalWord_of_z hz
  · refine ⟨(exec_expand_returns 0 s).exists_result (by decide),
      (exec_expand_returns 0x3F s).exists_result (by decide), ?_⟩
    rw [runWord_of_decode (w := 0x60000026) (i := .expand 0x26) (by decide)]
    exact (exec_expand_returns 0x26 s).exists_result (by decide)

/-- Settles O24: the value is read off the two tables. -/
theorem substCommandLooksUpBothTables : Obligations.SubstCommandLooksUpBothTables := by
  refine ⟨fun y s => ?_, decode_subst_word, fun w s hop hbits => runWord_onlyRaises_of_illegalWord ?_ s, fun s => ?_⟩
  · obtain ⟨t, ht, hret⟩ := exec_subst_returns y s
    have hvalue : t.result.toNat = (sbox y).toNat := hret.result_toNat (by decide)
    exact ⟨t, ht, hret.result_eq.symm ▸ hret, hvalue.trans_le (Nat.le_of_lt_succ (sbox y).isLt),
      hvalue.trans (sbox_toNat_eq_tables y)⟩
  · obtain hn | hd | hz := hbits
    · exact illegalWord_of_n .subst hop rfl hn
    · exact illegalWord_of_d .subst hop hd
    · exact illegalWord_of_z hz
  · refine ⟨(exec_subst_returns 0x00 s).exists_result (by decide),
      (exec_subst_returns 0xFF s).exists_result (by decide),
      (exec_subst_returns 0x0F s).exists_result (by decide), ?_⟩
    rw [runWord_of_decode (w := 0x700000CF) (i := .subst 0xCF) (by decide)]
    exact (exec_subst_returns 0xCF s).exists_result (by decide)

/-- Settles O25: the three outcomes are those of a command on one round key. -/
theorem roundfCommandAppliesTheRoundFunction : Obligations.RoundfCommandAppliesTheRoundFunction := by
  refine ⟨fun i h s hv => ?_, fun idx h s => returnWith_key_raises_indexRange (feistel h),
    fun i h s => returnWith_key_raises_keyInvalid (feistel h), decode_roundf_word,
    fun w s hop hbits => runWord_onlyRaises_of_illegalWord ?_ s, fun h => ?_, by decide, by decide, fun s hv hkey => ?_⟩
  · obtain ⟨t, ht, hret⟩ := exec_roundf_returns hv h
    exact ⟨t, ht, (hret.result_toNat (by decide)).trans_le (Nat.le_of_lt_succ (feistel h s.rk[i]).isLt), hret⟩
  · obtain hd | hz := hbits
    · exact illegalWord_of_d .roundf hop hd
    · exact illegalWord_of_z hz
  · rw [feistel]
    exact congrArg sbox BitVec.xor_zero
  · rw [runWord_of_decode (w := 0x80000026) (i := .roundf 0 0x26) (by decide)]
    refine (exec_roundf_returns (i := 0) hv 0x26).exists_result ?_
    change (feistel 0x26 s.rk[0]).setWidth 12 = _
    rw [hkey]
    decide

/-- Settles O26: the value is the round driver's, whose left half is the old right half. -/
theorem roundCommandAppliesOneRound : Obligations.RoundCommandAppliesOneRound := by
  refine ⟨fun i b s hv => ?_, fun idx b s => returnWith_key_raises_indexRange (feistelRound b),
    fun i b s => returnWith_key_raises_keyInvalid (feistelRound b), decode_round_word,
    fun w s _ hz => runWord_onlyRaises_of_illegalWord (illegalWord_of_z hz) s, by decide, by decide, by decide,
    by decide, fun s hv hkey => ?_⟩
  · obtain ⟨t, ht, hret⟩ := exec_round_returns hv b
    exact ⟨t, ht, (congrArg leftHalf hret.result_eq).trans (leftHalf_feistelRound b s.rk[i]), hret⟩
  · rw [runWord_of_decode (w := 0x90000726) (i := .round 0 0x726) (by decide)]
    refine (exec_round_returns (i := 0) hv 0x726).exists_result ?_
    change feistelRound 0x726 s.rk[0] = _
    rw [hkey]
    decide

/-- Settles O27: the final permutation is its own inverse. -/
theorem fpermCommandSwapsTheHalves : Obligations.FpermCommandSwapsTheHalves := by
  refine ⟨fun b s => ?_, decode_fperm_word, fun w s hop hbits => runWord_onlyRaises_of_illegalWord ?_ s, fun s => ?_⟩
  · obtain ⟨t, ht, hret⟩ := exec_fperm_returns b s
    have htwice : finalPerm t.result = b := by rw [hret.result_eq, finalPerm_finalPerm]
    exact ⟨t, ht, hret, (exec_fperm_returns t.result t).exists_result htwice,
      fun heq => hret.result_eq.trans (finalPerm_eq_self heq)⟩
  · obtain hn | hz := hbits
    · exact illegalWord_of_n .fperm hop rfl hn
    · exact illegalWord_of_z hz
  · refine ⟨(exec_fperm_returns 0x000 s).exists_result (by decide),
      (exec_fperm_returns 0xFFF s).exists_result (by decide),
      (exec_fperm_returns 0x03F s).exists_result (by decide), ?_⟩
    rw [runWord_of_decode (w := 0xA0000123) (i := .fperm 0x123) (by decide)]
    exact (exec_fperm_returns 0x123 s).exists_result (by decide)

end Sys2Proof.Machine
end

section
/-! The key schedule bit by bit (41_key_schedule.md R77 to R79). Each bit of a round key is read off the 16-bit value of
R77 before its truncation, where the bits that come from the left part and those that come from the right part do not
overlap. -/

namespace Sys2Proof.Machine

/-! ### The masks (R26, R78) -/

theorem maskL_getLsbD (j : Nat) : maskL.getLsbD j = (!decide (j < 10) && decide (j < 16)) := by
  rw [show maskL = BitVec.allOnes 16 <<< 10 by decide, BitVec.getLsbD_shiftLeft, BitVec.getLsbD_allOnes]
  by_cases h16 : j < 16
  · simp [h16, show j - 10 < 16 by omega]
  · simp [h16]

theorem maskR_getLsbD (j : Nat) : (maskR.setWidth 16).getLsbD j = (!decide (j = 0) && decide (j ≤ 8)) := by
  rw [show maskR.setWidth 16 = (BitVec.allOnes 8).setWidth 16 <<< 1 by decide, BitVec.getLsbD_shiftLeft,
    BitVec.getLsbD_setWidth, BitVec.getLsbD_allOnes]
  by_cases h8 : j ≤ 8
  · simp [h8, show j < 16 by omega, show j - 1 < 16 by omega, show j - 1 < 8 by omega]
  · simp [h8, show ¬ j - 1 < 8 by omega]

/-- The sign fill sets the bits the zero fill leaves clear (R78). -/
theorem leftMask_getLsbD (signedMask : Bool) (i : Nat) {j : Nat} (hj : j < 16) :
    (leftMask signedMask i).getLsbD j = (!decide (i + j < 10) && (signedMask || decide (i + j < 16))) := by
  cases signedMask with
  | false => simp [leftMask, maskL_getLsbD]
  | true =>
    have hmsb : maskL.msb = true := by decide
    rw [leftMask, if_pos rfl, BitVec.getLsbD_sshiftRight, maskL_getLsbD, hmsb]
    by_cases h16 : i + j < 16
    · simp [h16, hj]
    · simp [h16, hj, show ¬ i + j < 10 by omega]

/-! ### The value before the truncation (R77) -/

/-- The part of the value that the left mask selects, the top bits of the round key. -/
def scheduleLeft (signedMask : Bool) (key : MasterKey) (i : Nat) : BitVec 16 :=
  (key.setWidth 16 &&& leftMask signedMask i) >>> (10 - i)

/-- The part of the value that the right mask selects, for `i` from 1 on. -/
def scheduleRight (key : MasterKey) (i : Nat) : BitVec 16 := (key.setWidth 16 &&& (maskR.setWidth 16 >>> i)) <<< (i - 1)

/-- The 16-bit value whose low byte is `KeySched(K, i)`. -/
def scheduleValue (signedMask : Bool) (key : MasterKey) (i : Nat) : BitVec 16 :=
  if i = 0 then (key.setWidth 16 &&& maskR.setWidth 16) >>> 1 else scheduleLeft signedMask key i ||| scheduleRight key i

theorem keySched_eq_truncation (signedMask : Bool) (key : MasterKey) (i : Nat) :
    keySched signedMask key i = (scheduleValue signedMask key i).setWidth 8 := by
  unfold keySched scheduleValue scheduleLeft scheduleRight
  split
  · next h => rw [h, BitVec.ushiftRight_zero]
  · rfl

theorem scheduleLeft_getLsbD (signedMask : Bool) (key : MasterKey) {i : Nat} (hi : i ≤ 8) (j : Nat) :
    (scheduleLeft signedMask key i).getLsbD j =
      (decide (j + 1 < i) && (signedMask || decide (j < 6)) && key.getLsbD (10 + j - i)) := by
  rw [scheduleLeft, BitVec.getLsbD_ushiftRight, BitVec.getLsbD_and, BitVec.getLsbD_setWidth,
    show 10 - i + j = 10 + j - i by omega]
  by_cases hlow : j + 1 < i
  · rw [leftMask_getLsbD signedMask i (show 10 + j - i < 16 by omega)]
    simp [hlow, show 10 + j - i < 16 by omega, show i + (10 + j - i) = 10 + j by omega,
      show (10 + j < 16) ↔ j < 6 by omega, Bool.and_comm]
  · simp [hlow, key.getLsbD_of_ge (10 + j - i) (by omega)]

theorem scheduleRight_getLsbD (key : MasterKey) {i : Nat} (hpos : 1 ≤ i) (hi : i ≤ 8) (j : Nat) :
    (scheduleRight key i).getLsbD j = (decide (i ≤ j + 1) && decide (j < 8) && key.getLsbD (j + 1 - i)) := by
  rw [scheduleRight, BitVec.getLsbD_shiftLeft, BitVec.getLsbD_and, BitVec.getLsbD_setWidth, BitVec.getLsbD_ushiftRight,
    maskR_getLsbD, show j - (i - 1) = j + 1 - i by omega]
  by_cases hlow : i ≤ j + 1
  · by_cases h8 : j < 8
    · simp [hlow, h8, show j < 16 by omega, show ¬ j < i - 1 by omega, show j + 1 - i < 16 by omega]
    · simp [hlow, h8]
  · simp [hlow, show j < i - 1 by omega]

/-- Bit `j` of the value is a bit of the master key read cyclically (R79), but for bit 6 of key 8 under the unsigned
reading (R78); from bit 8 on the value is zero. -/
theorem scheduleValue_getLsbD (signedMask : Bool) (key : MasterKey) {i : Nat} (hi : i ≤ 8) (j : Nat) :
    (scheduleValue signedMask key i).getLsbD j =
      (decide (j < 8) && (signedMask || !decide (i = 8 ∧ j = 6)) && key.getLsbD ((10 + j - i) % 9)) := by
  rw [scheduleValue]
  by_cases h0 : i = 0
  · rw [if_pos h0, BitVec.getLsbD_ushiftRight, BitVec.getLsbD_and, BitVec.getLsbD_setWidth, maskR_getLsbD, h0]
    by_cases h8 : j < 8
    · simp [h8, show 1 + j < 16 by omega, show 1 + j ≤ 8 by omega, show (10 + j) % 9 = 1 + j by omega]
    · simp [h8, show ¬ 1 + j ≤ 8 by omega]
  · rw [if_neg h0, BitVec.getLsbD_or, scheduleLeft_getLsbD signedMask key hi,
      scheduleRight_getLsbD key (Nat.one_le_iff_ne_zero.2 h0) hi]
    by_cases hlow : j + 1 < i
    · have h86 : decide (j < 6) = !decide (i = 8 ∧ j = 6) := by
        rw [← decide_not]
        exact decide_eq_decide.2 (by omega)
      simp [hlow, h86, show ¬ i ≤ j + 1 by omega, show j < 8 by omega, show (10 + j - i) % 9 = 10 + j - i by omega]
    · by_cases h8 : j < 8
      · simp [hlow, h8, show i ≤ j + 1 by omega, show (10 + j - i) % 9 = j + 1 - i by omega,
          show ¬ (i = 8 ∧ j = 6) by omega]
      · simp [hlow, h8]

/-- The truncation to a round key loses no one bit (R77). -/
theorem scheduleValue_eq_setWidth (signedMask : Bool) (key : MasterKey) {i : Nat} (hi : i ≤ 8) :
    scheduleValue signedMask key i = (keySched signedMask key i).setWidth 16 := by
  apply BitVec.eq_of_getLsbD_eq
  intro j hj
  rw [keySched_eq_truncation, BitVec.getLsbD_setWidth, BitVec.getLsbD_setWidth, scheduleValue_getLsbD _ _ hi]
  simp [hj, Bool.and_assoc]

theorem keySched_toNat (signedMask : Bool) (key : MasterKey) {i : Nat} (hi : i ≤ 8) :
    (keySched signedMask key i).toNat = (scheduleValue signedMask key i).toNat := by
  rw [scheduleValue_eq_setWidth signedMask key hi, BitVec.toNat_setWidth_of_le (by decide)]

theorem keySched_getLsbD (signedMask : Bool) (key : MasterKey) (i : Fin 9) (j : Fin 8) :
    (keySched signedMask key i.val).getLsbD j.val =
      ((signedMask || !decide (i = 8 ∧ j = 6)) && key.getLsbD ((10 + j.val - i.val) % 9)) := by
  rw [keySched_eq_truncation, BitVec.getLsbD_setWidth, scheduleValue_getLsbD _ _ (Nat.le_of_lt_succ i.isLt)]
  simp [Fin.ext_iff]

/-! ### The statements -/

/-- Settles O16. -/
theorem keyScheduleReadsTheKeyCyclically : Obligations.KeyScheduleReadsTheKeyCyclically := by
  intro signedMask key i j
  rw [keySched_getLsbD]
  cases signedMask <;> by_cases h68 : i = 8 ∧ j = 6 <;> simp [h68]

/-- Settles O17: the reading appears in the bits of a round key at bit 6 of key 8 alone. -/
theorem signednessShowsOnlyInKeyEightBitSix : Obligations.SignednessShowsOnlyInKeyEightBitSix := by
  refine ⟨by decide, fun key => ⟨?_, ?_⟩, fun key i j h => ?_⟩
  · simpa using keySched_getLsbD true key 8 6
  · simpa using keySched_getLsbD false key 8 6
  · rw [keySched_getLsbD, keySched_getLsbD]
    simp [h]

/-- Settles O18: the two sides of each clause are a byte and its zero extension. -/
theorem keyScheduleLosesNoBit : Obligations.KeyScheduleLosesNoBit := by
  refine ⟨fun signedMask key i hi => ?_, fun signedMask key => keySched_toNat signedMask key (Nat.zero_le 8)⟩
  have hi0 : i.val ≠ 0 := fun h => hi (Fin.ext h)
  rw [keySched_toNat signedMask key (Nat.le_of_lt_succ i.isLt), scheduleValue, if_neg hi0]
  rfl

end Sys2Proof.Machine
end

section
/-! The round-key commands (41_key_schedule.md R80 to R82): what each leaves, which words are theirs, and the examples of
the rules; and that no other command touches the round-key file (R83). -/

namespace Sys2Proof.Machine

/-! ### Words -/

theorem decode_keygen_word (n : Index) (key : MasterKey) :
    decode (0x1#4 ++ n ++ 0#15 ++ key) = some (.keygen n key) :=
  (decode_eq_some_iff _ _).2
    (BitVec.eq_of_getLsbD_eq fun j _ => formatC_setWidth_getLsbD 0x1 n (z := 15) rfl (by decide) key j)

theorem decode_wrkey_word (idx : Index) (k : RoundKey) : decode (0x4#4 ++ idx ++ 0#16 ++ k) = some (.wrkey idx k) :=
  (decode_eq_some_iff _ _).2
    (BitVec.eq_of_getLsbD_eq fun j _ => formatC_setWidth_getLsbD 0x4 idx (z := 16) rfl (by decide) k j)

/-- `RDKEY` has an operand of no bits in `D`. -/
theorem decode_rdkey_word (idx : Index) : decode (0x5#4 ++ idx ++ 0#24) = some (.rdkey idx) := by
  refine (decode_eq_some_iff _ _).2 (BitVec.eq_of_getLsbD_eq fun j _ => ?_)
  refine (formatC_setWidth_getLsbD 0x5 idx (z := 24) rfl (by decide) 0#0 j).trans ?_
  simp

/-! ### `KEYGEN` (R80) -/

theorem loadSchedule_key {n : Nat} (key : MasterKey) (s : State) {j : Fin 9} (h : j.val < n) :
    (loadSchedule n key s).rk[j] = scheduleKey key j.val := by
  simp [h]

/-- The example of R80, on the scheduled keys: none of the four depends on the open parameter. -/
theorem scheduleKey_example :
    scheduleKey 0x0CA 0 = 0x65 ∧ scheduleKey 0x0CA 1 = 0xCA ∧ scheduleKey 0x0CA 2 = 0x94 ∧
      scheduleKey 0x0CA 3 = 0x29 := by
  decide

/-- `KEYGEN 4, 0x0CA`. -/
theorem runWord_keygen_example (s : State) : runWord 0x140000CA s = .next (complete .ok (loadSchedule 4 0x0CA s)) :=
  (runWord_of_decode (i := .keygen 4 0x0CA) (by decide) s).trans (exec_keygen_of_le (by decide) 0x0CA s)

/-- Settles O20. -/
theorem keygenLoadsTheSchedule : Obligations.KeygenLoadsTheSchedule := by
  refine ⟨fun n key s hn => ?_, fun n key s hn => ?_, decode_keygen_word,
    fun w s hop hbits => runWord_onlyRaises_of_illegalWord ?_ s, by decide, by decide, by decide, fun s => ?_⟩
  · refine ⟨_, exec_keygen_of_le hn key s, ⟨rfl, rfl, rfl, rfl, rfl⟩, rfl, fun j hj => ?_, fun j => ?_⟩
    · rw [← scheduleKey_eq]
      exact loadSchedule_key key s hj
    · simp
  · exact ⟨_, exec_keygen_of_gt hn key s, ⟨rfl, rfl, rfl, rfl, rfl⟩, rfl, rfl, rfl⟩
  · obtain hd | hz := hbits
    · exact illegalWord_of_d .keygen hop hd
    · exact illegalWord_of_z hz
  · obtain ⟨h0, h1, h2, h3⟩ := scheduleKey_example
    have key (j : Fin 9) (hj : j.val < 4) := loadSchedule_key 0x0CA s hj
    exact ⟨_, runWord_keygen_example s, (key 0 (by decide)).trans h0, (key 1 (by decide)).trans h1,
      (key 2 (by decide)).trans h2, (key 3 (by decide)).trans h3, (by decide : validBelow 4 = _)⟩

/-! ### `WRKEY` (R81) -/

/-- Settles O21. -/
theorem wrkeyWritesOneEntry : Obligations.WrkeyWritesOneEntry := by
  refine ⟨fun i k s => ?_, fun idx k s hidx => ⟨_, exec_wrkey_of_gt hidx k s, onlyRaises_complete _ s⟩,
    decode_wrkey_word, fun w s hop hbits => runWord_onlyRaises_of_illegalWord ?_ s, fun s => ?_⟩
  · refine ⟨_, exec_wrkey_ofNat i k s, ⟨rfl, rfl, rfl, rfl, rfl⟩, rfl, by simp, by simp, fun j hj => ?_⟩
    have hne : j.val ≠ i.val := Fin.val_ne_of_ne hj
    exact ⟨by simp [Vector.getElem_set_ne, hne.symm], by simp [hne]⟩
  · obtain hd | hz := hbits
    · exact illegalWord_of_d .wrkey hop hd
    · exact illegalWord_of_z hz
  · rw [runWord_of_decode (w := 0x40000000) (i := .wrkey 0 0x00) (by decide)]
    exact ⟨_, exec_wrkey_ofNat 0 0x00 s, by simp, by simp⟩

/-! ### `RDKEY` (R82) -/

theorem exec_rdkey_returns {i : Fin 9} {s : State} (hv : keyValid s i.val = true) :
    Returns (exec (.rdkey (BitVec.ofNat 4 i.val)) s) s (s.rk[i].setWidth 12) :=
  returnWith_key_returns id hv

theorem exec_rdkey_raises_keyInvalid {i : Fin 9} {s : State} (hv : keyValid s i.val = false) :
    Raises (exec (.rdkey (BitVec.ofNat 4 i.val)) s) s .keyInvalid :=
  returnWith_key_raises_keyInvalid id hv

/-- Settles O22: the three outcomes are those of a command on one round key. -/
theorem rdkeyCopiesOneEntry : Obligations.RdkeyCopiesOneEntry := by
  refine ⟨fun i s hv => ?_, fun idx s => returnWith_key_raises_indexRange id, fun i s => exec_rdkey_raises_keyInvalid,
    decode_rdkey_word, fun w s hop hbits => runWord_onlyRaises_of_illegalWord ?_ s, fun n key s i hn hi => ?_,
    fun s => ?_⟩
  · obtain ⟨t, ht, hret⟩ := exec_rdkey_returns hv
    exact ⟨t, ht, hret, (hret.result_toNat (by decide)).trans_le (Nat.le_of_lt_succ s.rk[i].isLt)⟩
  · obtain hd | hz := hbits
    · exact illegalWord_of_d .rdkey hop hd
    · exact illegalWord_of_z hz
  · have hinvalid : keyValid (complete .ok (loadSchedule n.toNat key s)) i.val = false := by simp [Nat.not_lt.2 hi]
    obtain ⟨u, hu, hraise⟩ := exec_rdkey_raises_keyInvalid hinvalid
    exact ⟨_, u, exec_keygen_of_le hn key s, hu, hraise⟩
  · obtain ⟨-, -, h2, -⟩ := scheduleKey_example
    have hkey : (complete .ok (loadSchedule 4 0x0CA s)).rk[(2 : Fin 9)] = 0x94 :=
      (loadSchedule_key 0x0CA s (by decide)).trans h2
    have hvalid : keyValid (complete .ok (loadSchedule 4 0x0CA s)) (2 : Fin 9).val = true := by simp
    obtain ⟨t, ht, hresult⟩ := (exec_rdkey_returns hvalid).exists_result (v := 0x094) (by rw [hkey]; decide)
    have hrun := (runWord_of_decode (w := 0x52000000) (i := .rdkey 2) (by decide) _).trans ht
    exact ⟨t, (serialRun_cons (runWord_keygen_example s)).trans (serialRun_singleton hrun), hresult⟩

/-! ### What writes the round-key file (R83) -/

/-- The commands that may write the round-key file. -/
def WritesKeys (i : Instr) : Prop := (∃ n key, i = .keygen n key) ∨ ∃ idx key, i = .wrkey idx key

theorem exec_keepsKeys {i : Instr} {s t : State} (h : exec i s = .next t) (hi : ¬ WritesKeys i) : KeepsKeys s t := by
  obtain ⟨c, rfl⟩ | ⟨v, rfl⟩ | ⟨n, key, rfl, -⟩ | ⟨idx, key, -, rfl, -⟩ := exec_cases h
  · exact ⟨rfl, rfl⟩
  · exact ⟨rfl, rfl⟩
  · exact absurd (.inl ⟨n, key, rfl⟩) hi
  · exact absurd (.inr ⟨idx, key, rfl⟩) hi

theorem runWord_of_not_keepsKeys {w : Word} {s t : State} (h : runWord w s = .next t) (hne : ¬ KeepsKeys s t) :
    ∃ i, decode w = some i ∧ WritesKeys i := by
  cases hd : decode w with
  | none =>
    rw [runWord_of_illegal hd] at h
    cases h
    exact absurd ⟨rfl, rfl⟩ hne
  | some i =>
    rw [runWord_of_decode hd] at h
    exact ⟨i, rfl, by_contra fun hi => hne (exec_keepsKeys h hi)⟩

/-- Settles O35: of the five kinds of edge only the reset edge and the completing edge touch the round-key file. -/
theorem onlyKeyCommandsAndResetWriteKeys : Obligations.OnlyKeyCommandsAndResetWriteKeys := by
  intro s t hs hne
  have hkeys : ¬ KeepsKeys s t := not_and_or.2 hne
  obtain ⟨hr, -⟩ | ⟨-, hb, -, hrun⟩ | ⟨-, -, -, rfl⟩ | ⟨-, -, -, rfl⟩ | ⟨-, -, -, rfl⟩ := step_cases hs
  case inl => exact .inl hr
  case inr.inl =>
    obtain ⟨i, hd, ⟨n, key, rfl⟩ | ⟨idx, key, rfl⟩⟩ := runWord_of_not_keepsKeys hrun hkeys
    · exact .inr ⟨hb, (runWord_ends_idle hrun).1, .inl ⟨n, key, hd⟩⟩
    · exact .inr ⟨hb, (runWord_ends_idle hrun).1, .inr ⟨idx, key, hd⟩⟩
  all_goals exact absurd ⟨rfl, rfl⟩ hkeys

end Sys2Proof.Machine
end

section
/-! The drivers `Enc` and `Dec` (42_encrypt_decrypt.md R84, R85) as functions of a list of round keys: how they thread a
block through the rounds, and that the one undoes the other (R87). -/

namespace Sys2Proof.Machine

/-! ### The rounds -/

theorem enc_nil (p : Block) : enc p [] = finalPerm p := rfl

theorem enc_cons (p : Block) (k : RoundKey) (ks : List RoundKey) : enc p (k :: ks) = enc (feistelRound p k) ks := rfl

/-- `Dec` is `Enc` with the keys in reverse order. -/
theorem dec_eq_enc_reverse (c : Block) (ks : List RoundKey) : dec c ks = enc c ks.reverse := rfl

theorem dec_nil (c : Block) : dec c [] = finalPerm c := rfl

theorem dec_append_singleton (c : Block) (k : RoundKey) (ks : List RoundKey) :
    dec c (ks ++ [k]) = dec (feistelRound c k) ks := by
  rw [dec_eq_enc_reverse, List.reverse_concat, enc_cons, dec_eq_enc_reverse]

/-- Settles O15. -/
theorem driversThreadTheRounds : Obligations.DriversThreadTheRounds :=
  ⟨enc_nil, dec_nil, enc_cons, dec_append_singleton⟩

/-- The block after the first `i` rounds: `st` of R84. -/
def blockAfter (b : Block) (ks : List RoundKey) (i : Nat) : Block := (ks.take i).foldl feistelRound b

theorem blockAfter_zero (b : Block) (ks : List RoundKey) : blockAfter b ks 0 = b := rfl

theorem blockAfter_succ (b : Block) {ks : List RoundKey} {i : Nat} (h : i < ks.length) :
    blockAfter b ks (i + 1) = feistelRound (blockAfter b ks i) ks[i] := by
  rw [blockAfter, ← List.take_concat_get' ks i h, List.foldl_concat, blockAfter]

theorem enc_eq_finalPerm_blockAfter (p : Block) (ks : List RoundKey) :
    enc p ks = finalPerm (blockAfter p ks ks.length) := by
  rw [blockAfter, List.take_length, enc]

/-! ### Undoing the rounds (R87) -/

/-- Between two final permutations a round runs backwards: this is why `Dec` needs no inverse of the round. -/
theorem feistelRound_finalPerm (b : Block) (k : RoundKey) :
    feistelRound (finalPerm b) k = finalPerm (feistelUnround b k) := by
  simp [feistelRound, finalPerm, feistelUnround]

/-- Taking the rounds back, the last first, gives the block back. -/
theorem foldl_feistelUnround_reverse (p : Block) (ks : List RoundKey) :
    ks.reverse.foldl feistelUnround (ks.foldl feistelRound p) = p := by
  induction ks generalizing p with
  | nil => rfl
  | cons k ks ih =>
    rw [List.foldl_cons, List.reverse_cons, List.foldl_concat, ih, feistelUnround_feistelRound]

theorem dec_enc (p : Block) (ks : List RoundKey) : dec (enc p ks) ks = p := by
  have hback : ks.reverse.foldl feistelRound (finalPerm (ks.foldl feistelRound p)) =
      finalPerm (ks.reverse.foldl feistelUnround (ks.foldl feistelRound p)) :=
    List.foldl_hom finalPerm feistelRound_finalPerm
  rw [dec, enc, hback, foldl_feistelUnround_reverse, finalPerm_finalPerm]

end Sys2Proof.Machine
end

section
/-! The driver commands (42_encrypt_decrypt.md R88, R89): how each completes, which words are theirs, the examples of
the rules, and that `DECRYPT` undoes `ENCRYPT` (R87). -/

namespace Sys2Proof.Machine

/-! ### The round keys of `n` rounds -/

/-- `RK[0]` to `RK[n-1]`. -/
def firstKeys (s : State) (n : Nat) : List RoundKey := s.rk.toList.take n

theorem firstKeys_length (s : State) {n : Nat} (hn : n ≤ 9) : (firstKeys s n).length = n := by
  simp [firstKeys, hn]

theorem firstKeys_getElem (s : State) {n : Nat} {i : Fin 9} (h : i.val < (firstKeys s n).length) :
    (firstKeys s n)[i.val] = s.rk[i] := by
  simp [firstKeys]

/-- The first `n` round keys are a given list when they are so entry by entry. -/
theorem firstKeys_eq {s : State} {n : Nat} {ks : List RoundKey} (hn : n ≤ 9) (hlen : ks.length = n)
    (h : ∀ (i : Fin 9) (hi : i.val < ks.length), s.rk[i] = ks[i.val]) : firstKeys s n = ks := by
  refine List.ext_getElem ((firstKeys_length s hn).trans hlen.symm) fun i hi hks => ?_
  have hi9 : i < 9 := by omega
  exact (firstKeys_getElem s (i := ⟨i, hi9⟩) hi).trans (h ⟨i, hi9⟩ hks)

theorem firstKeys_congr {s u : State} {n : Nat} (hn : n ≤ 9) (h : ∀ i : Fin 9, i.val < n → u.rk[i] = s.rk[i]) :
    firstKeys u n = firstKeys s n := by
  have hlen := firstKeys_length s hn
  refine firstKeys_eq hn hlen fun i hi => ?_
  rw [firstKeys_getElem]
  exact h i (hlen ▸ hi)

theorem firstKeys_one (s : State) : firstKeys s 1 = [s.rk[0]] := by
  refine firstKeys_eq (by decide) rfl fun i hi => ?_
  obtain rfl : i = 0 := Fin.ext (Nat.lt_one_iff.1 hi)
  rfl

/-! ### The three outcomes of a command on the keys of `n` rounds (R88, R89, R97) -/

section RoundKeys
variable {n : Index} {s : State} (f : List RoundKey → Block)

theorem returnWith_roundKeys_returns (hn : n.toNat ≤ 9) (hv : ∀ i < n.toNat, keyValid s i = true) :
    Returns (returnWith (roundKeys n s) f s) s (f (firstKeys s n.toNat)) := by
  rw [returnWith_ok (roundKeys_of_valid hn ((keysValid_iff s n.toNat).2 hv)), BitVec.setWidth_eq]
  exact ⟨_, rfl, onlyReturns_complete _ s⟩

theorem returnWith_roundKeys_raises_roundsRange (hn : 9 < n.toNat) :
    Raises (returnWith (roundKeys n s) f s) s .roundsRange :=
  ⟨_, returnWith_error (roundKeys_of_gt hn) f s, onlyRaises_complete _ s⟩

theorem returnWith_roundKeys_raises_keyInvalid {i : Nat} (hn : n.toNat ≤ 9) (hi : i < n.toNat)
    (hv : keyValid s i = false) : Raises (returnWith (roundKeys n s) f s) s .keyInvalid := by
  have hinvalid : keysValid s n.toNat = false := by
    rw [Bool.eq_false_iff, Ne, keysValid_iff]
    exact fun hall => Bool.false_ne_true (hv.symm.trans (hall i hi))
  exact ⟨_, returnWith_error (roundKeys_of_invalid hn hinvalid) f s, onlyRaises_complete _ s⟩

end RoundKeys

section Valid
variable {n : Index} {s : State} (hn : n.toNat ≤ 9) (hv : ∀ i < n.toNat, keyValid s i = true)
include hn hv

theorem exec_encrypt_returns (p : Block) : Returns (exec (.encrypt n p) s) s (enc p (firstKeys s n.toNat)) :=
  returnWith_roundKeys_returns (enc p) hn hv

theorem exec_decrypt_returns (c : Block) : Returns (exec (.decrypt n c) s) s (dec c (firstKeys s n.toNat)) :=
  returnWith_roundKeys_returns (dec c) hn hv

/-- `DECRYPT` of what `ENCRYPT` gave with the same keys returns the plaintext. -/
theorem exec_decrypt_enc_returns {ks : List RoundKey} (hks : firstKeys s n.toNat = ks) (p : Block) :
    Returns (exec (.decrypt n (enc p ks)) s) s p := by
  have h := exec_decrypt_returns hn hv (enc p ks)
  rwa [hks, dec_enc] at h

end Valid

theorem OnlyReturns.err_eq {v : Block} {s t : State} (h : OnlyReturns v s t) : t.err = 0 := by
  obtain ⟨⟨-, -, herr, -⟩, -⟩ := h
  exact herr

/-- Settles O30: the first `n` keys are still there, and valid, when `DECRYPT` reads them. -/
theorem decryptUndoesEncrypt : Obligations.DecryptUndoesEncrypt := by
  refine ⟨dec_enc, fun n p s hn hv => ?_⟩
  obtain ⟨t, ht, hret⟩ := exec_encrypt_returns hn hv p
  have ⟨_, ⟨hrk, hrkv⟩, hresult⟩ := hret
  have hvt : ∀ i < n.toNat, keyValid t i = true := fun i hi => by simpa only [keyValid, hrkv] using hv i hi
  have hkeys : firstKeys t n.toNat = firstKeys s n.toNat := by rw [firstKeys, hrk, firstKeys]
  obtain ⟨u, hu, hback⟩ := exec_decrypt_enc_returns hn hvt hkeys p
  exact ⟨t, u, ht, hresult ▸ hu, hback.err_eq, hback.result_eq⟩

/-! ### Few rounds -/

/-- No round needs no key. -/
theorem keyValid_below_zero (s : State) : ∀ i < (0 : Index).toNat, keyValid s i = true :=
  fun i hi => absurd hi (Nat.not_lt_zero i)

theorem keyValid_below_one {s : State} (h : keyValid s 0 = true) : ∀ i < (1 : Index).toNat, keyValid s i = true := by
  intro i hi
  obtain rfl : i = 0 := Nat.lt_one_iff.1 hi
  exact h

/-- With one key the order does not matter. -/
theorem dec_singleton (b : Block) (k : RoundKey) : dec b [k] = enc b [k] := rfl

/-! ### After `KEYGEN` -/

/-- The engine when `KEYGEN n, key` has completed. -/
def afterKeygen (n : Nat) (key : MasterKey) (s : State) : State := complete .ok (loadSchedule n key s)

theorem afterKeygen_valid {n : Nat} (hn : n ≤ 9) (key : MasterKey) (s : State) :
    ∀ i < n, keyValid (afterKeygen n key s) i = true := by
  intro i hi
  simp [afterKeygen, hi, Nat.lt_of_lt_of_le hi hn]

/-- The keys of a driver command of `n` rounds are then the schedule (R80). -/
theorem firstKeys_afterKeygen {n : Nat} (hn : n ≤ 9) (key : MasterKey) (s : State) :
    firstKeys (afterKeygen n key s) n = (List.range n).map (scheduleKey key) := by
  refine firstKeys_eq hn (by simp) fun i hi => ?_
  have hin : i.val < n := by simpa using hi
  simp [afterKeygen, hin]

theorem exec_encrypt_afterKeygen_returns {n : Index} (hn : n.toNat ≤ 9) (key : MasterKey) (p : Block) (s : State) :
    Returns (exec (.encrypt n p) (afterKeygen n.toNat key s)) (afterKeygen n.toNat key s)
      (enc p ((List.range n.toNat).map (scheduleKey key))) := by
  rw [← firstKeys_afterKeygen hn key s]
  exact exec_encrypt_returns hn (afterKeygen_valid hn key s) p

theorem exec_decrypt_afterKeygen_returns {n : Index} (hn : n.toNat ≤ 9) (key : MasterKey) (c : Block) (s : State) :
    Returns (exec (.decrypt n c) (afterKeygen n.toNat key s)) (afterKeygen n.toNat key s)
      (dec c ((List.range n.toNat).map (scheduleKey key))) := by
  rw [← firstKeys_afterKeygen hn key s]
  exact exec_decrypt_returns hn (afterKeygen_valid hn key s) c

/-- A word after `KEYGEN 4, 0x0CA`. -/
theorem serialRun_keygen_example {w : Word} {i : Instr} (hw : decode w = some i) {s t : State}
    (h : exec i (afterKeygen 4 0x0CA s) = .next t) : serialRun [0x140000CA, w] s = .next t :=
  (serialRun_cons (runWord_keygen_example s)).trans (serialRun_singleton ((runWord_of_decode hw _).trans h))

/-! ### The statements -/

/-- The digits of the word are the fields of format `C` in order. -/
theorem decode_encrypt_word (n : Index) (p : Block) : decode (0x2#4 ++ n ++ 0#12 ++ p) = some (.encrypt n p) :=
  decode_encode (.encrypt n p)

theorem decode_decrypt_word (n : Index) (c : Block) : decode (0x3#4 ++ n ++ 0#12 ++ c) = some (.decrypt n c) :=
  decode_encode (.decrypt n c)

/-- Settles O28: round `i` is the step of `blockAfter` with entry `i` of the first `n` keys. -/
theorem encryptCommandRunsTheRounds : Obligations.EncryptCommandRunsTheRounds := by
  refine ⟨fun n p s hn hv => ?_, fun n p s => returnWith_roundKeys_raises_roundsRange (enc p),
    fun n p s i => returnWith_roundKeys_raises_keyInvalid (enc p), decode_encrypt_word,
    fun w s _ hz => runWord_onlyRaises_of_illegalWord (illegalWord_of_z hz) s,
    fun p s => exec_encrypt_returns (by decide) (keyValid_below_zero s) p, fun s hv hkey => ?_, fun s => ?_⟩
  · have hlen := firstKeys_length s hn
    obtain ⟨t, ht, hret⟩ := exec_encrypt_returns hn hv p
    rw [enc_eq_finalPerm_blockAfter, hlen] at hret
    refine ⟨t, blockAfter p (firstKeys s n.toNat), ht, hret, blockAfter_zero _ _, fun i hi => ?_⟩
    rw [blockAfter_succ p (hlen.symm ▸ hi), firstKeys_getElem]
  · refine (exec_encrypt_returns (by decide) (keyValid_below_one hv) 0x000).exists_result ?_
    change enc 0x000 (firstKeys s 1) = 0xB00
    rw [firstKeys_one, hkey]
    decide
  · obtain ⟨t, ht, hresult⟩ :=
      (exec_encrypt_afterKeygen_returns (n := 4) (by decide) 0x0CA 0x726 s).exists_result (v := 0x58C) (by decide)
    exact ⟨t, serialRun_keygen_example (by decide) ht, hresult⟩

/-- Settles O29: `Dec` is `Enc` with the keys in reverse order, so round `i` is the step of `blockAfter` with entry
`n - 1 - i`. -/
theorem decryptCommandRunsTheRoundsInReverse : Obligations.DecryptCommandRunsTheRoundsInReverse := by
  refine ⟨fun n c s hn hv => ?_, fun n c s => returnWith_roundKeys_raises_roundsRange (dec c),
    fun n c s i => returnWith_roundKeys_raises_keyInvalid (dec c), decode_decrypt_word,
    fun w s _ hz => runWord_onlyRaises_of_illegalWord (illegalWord_of_z hz) s,
    fun c s => exec_decrypt_returns (by decide) (keyValid_below_zero s) c, fun n p s t u hn hv ht hu => ?_,
    fun b s hv => ?_, ?_, fun s => ?_⟩
  · have hlen : (firstKeys s n.toNat).reverse.length = n.toNat := by rw [List.length_reverse, firstKeys_length s hn]
    obtain ⟨t, ht, hret⟩ := exec_decrypt_returns hn hv c
    rw [dec_eq_enc_reverse, enc_eq_finalPerm_blockAfter, hlen] at hret
    refine ⟨t, blockAfter c (firstKeys s n.toNat).reverse, ht, hret, blockAfter_zero _ _, fun i j hij => ?_⟩
    have hkey : (firstKeys s n.toNat).length - 1 - i.val = j.val := by
      rw [firstKeys_length s hn]
      omega
    rw [blockAfter_succ c (by omega), List.getElem_reverse]
    simp only [hkey, firstKeys_getElem]
  · obtain ⟨t', ht', hret⟩ := exec_encrypt_returns hn hv p
    obtain rfl : t' = t := by simpa [ht] using ht'.symm
    have hvu : ∀ i < n.toNat, keyValid u i = true := fun i hi => (hu ⟨i, by omega⟩ hi).2
    have hkeys : firstKeys u n.toNat = firstKeys s n.toNat := firstKeys_congr hn fun i hi => (hu i hi).1
    rw [hret.result_eq]
    exact (exec_decrypt_enc_returns hn hvu hkeys p).exists_result rfl
  · obtain ⟨t, ht, hret⟩ := exec_encrypt_returns (by decide) (keyValid_below_one hv) b
    obtain ⟨u, hu, hret'⟩ := exec_decrypt_returns (by decide) (keyValid_below_one hv) b
    refine ⟨t, u, ht, hu, ?_⟩
    rw [hret.result_eq, hret'.result_eq]
    change enc b (firstKeys s 1) = dec b (firstKeys s 1)
    rw [firstKeys_one, dec_singleton]
  · obtain ⟨t, ht, hret⟩ := exec_encrypt_afterKeygen_returns (n := 2) (by decide) 0x0CA 0x726 State.reset
    obtain ⟨u, hu, hret'⟩ := exec_decrypt_afterKeygen_returns (n := 2) (by decide) 0x0CA 0x726 State.reset
    refine ⟨0x726, _, t, u, ht, hu, hret.err_eq, hret'.err_eq, ?_⟩
    rw [hret.result_eq, hret'.result_eq]
    decide
  · obtain ⟨t, ht, hresult⟩ :=
      (exec_decrypt_afterKeygen_returns (n := 4) (by decide) 0x0CA 0x58C s).exists_result (v := 0x726) (by decide)
    exact ⟨t, serialRun_keygen_example (by decide) ht, hresult⟩

end Sys2Proof.Machine
end

section
/-! The control command `NOP` (43_control.md R90): it completes, and clears what an earlier command left in `ERR`. -/

namespace Sys2Proof.Machine

/-- `KEYGEN 10, 0`, whose count is above the maximum (R80). -/
theorem runWord_keygen_ten (s : State) :
    runWord 0x1A000000 s = .next (complete .roundsRange (invalidateKeys s)) :=
  (runWord_of_decode (i := .keygen 10 0) (by decide) s).trans (exec_keygen_of_gt (by decide) 0 s)

/-- Settles O19: `NOP` is completion alone, and no other word of the opcode 0 decodes. -/
theorem nopCompletesAndDoesNothingElse : Obligations.NopCompletesAndDoesNothingElse := by
  refine ⟨fun s => ⟨_, exec_nop s, onlyRaises_complete .ok s⟩, (decode_nop_iff 0).2 rfl, fun w s hop hw => ?_,
    fun s => ?_⟩
  · have hillegal : decode w = none := decode_eq_none_of_opField_zero hop hw
    exact ⟨_, runWord_of_illegal hillegal s, onlyRaises_complete .illegalCmd s⟩
  · exact ⟨_, _, runWord_keygen_ten s, rfl, runWord_zero _, rfl, rfl, rfl⟩

end Sys2Proof.Machine
end

section
/-! Errors (60_exceptions.md R94 to R99): the one code a word completes with, what an error changes, and that no edge
stops the engine. -/

namespace Sys2Proof.Machine

/-! ### The code of a command (R95, R97)

A range is checked before a valid bit is read. -/

/-- The code of a command that needs the round keys of `n` rounds. -/
def roundKeysCode (n : Index) (s : State) : Completion :=
  if 9 < n.toNat then .roundsRange else if keysValid s n.toNat = false then .keyInvalid else .ok

/-- The code of a command that needs one round key. -/
def keyCode (idx : Index) (s : State) : Completion :=
  if 8 < idx.toNat then .indexRange else if keyValid s idx.toNat = false then .keyInvalid else .ok

/-- The code a command completes with: its row of the table of R95, in the order of R97. -/
def commandCode (s : State) : Instr → Completion
  | .nop | .expand _ | .subst _ | .fperm _ => .ok
  | .keygen n _ => if 9 < n.toNat then .roundsRange else .ok
  | .encrypt n _ | .decrypt n _ => roundKeysCode n s
  | .wrkey idx _ => if 8 < idx.toNat then .indexRange else .ok
  | .rdkey idx | .roundf idx _ | .round idx _ => keyCode idx s

/-- The code a word completes with: an illegal word reads no operand. -/
def wordCode (w : Word) (s : State) : Completion := (decode w).elim .illegalCmd (commandCode s)

/-- The answer is a completion with the code. -/
def CompletesWith (c : Completion) (a : Answer) : Prop := ∃ u, a = .next (complete c u)

theorem returnWith_roundKeys_completes {w : Nat} (n : Index) (f : List RoundKey → BitVec w) (s : State) :
    CompletesWith (roundKeysCode n s) (returnWith (roundKeys n s) f s) := by
  unfold roundKeysCode
  split_ifs with hn hv
  · exact ⟨_, returnWith_error (roundKeys_of_gt hn) f s⟩
  · exact ⟨_, returnWith_error (roundKeys_of_invalid (Nat.le_of_not_lt hn) hv) f s⟩
  · exact ⟨_, returnWith_ok (roundKeys_of_valid (Nat.le_of_not_lt hn) (eq_true_of_ne_false hv)) f s⟩

theorem returnWith_keyOperand_completes {w : Nat} (idx : Index) (f : RoundKey → BitVec w) (s : State) :
    CompletesWith (keyCode idx s) (returnWith (keyOperand idx s) f s) := by
  unfold keyCode
  split_ifs with hidx hv
  · exact ⟨_, returnWith_error (keyOperand_of_gt hidx) f s⟩
  · exact ⟨_, returnWith_error ((keyOperand_error_iff idx s _).2 (.inr ⟨Nat.le_of_not_lt hidx, hv, rfl⟩)) f s⟩
  · have hkey := (keyOperand_ok_iff idx s _).2 ⟨⟨idx.toNat, by omega⟩, rfl, eq_true_of_ne_false hv, rfl⟩
    exact ⟨_, returnWith_ok hkey f s⟩

theorem exec_completes (i : Instr) (s : State) : CompletesWith (commandCode s i) (exec i s) := by
  cases i with
  | nop => exact ⟨_, exec_nop s⟩
  | keygen n key =>
    rw [commandCode]
    split_ifs with hn
    · exact ⟨_, exec_keygen_of_gt hn key s⟩
    · exact ⟨_, exec_keygen_of_le (Nat.le_of_not_lt hn) key s⟩
  | wrkey idx key =>
    rw [commandCode]
    split_ifs with hidx
    · exact ⟨_, exec_wrkey_of_gt hidx key s⟩
    · exact ⟨_, exec_wrkey_of_ok ((keyIndex_ok_iff idx ⟨idx.toNat, by omega⟩).2 rfl) key s⟩
  | encrypt n p => exact returnWith_roundKeys_completes n (enc p) s
  | decrypt n c => exact returnWith_roundKeys_completes n (dec c) s
  | rdkey idx => exact returnWith_keyOperand_completes idx id s
  | roundf idx half => exact returnWith_keyOperand_completes idx (feistel half) s
  | round idx block => exact returnWith_keyOperand_completes idx (feistelRound block) s
  | expand half => exact ⟨_, exec_expand half s⟩
  | subst byte => exact ⟨_, exec_subst byte s⟩
  | fperm block => exact ⟨_, exec_fperm block s⟩

theorem wordCode_of_decode {w : Word} {i : Instr} (h : decode w = some i) (s : State) :
    wordCode w s = commandCode s i := by simp [wordCode, h]

theorem wordCode_of_illegal {w : Word} (h : decode w = none) (s : State) : wordCode w s = .illegalCmd := by
  simp [wordCode, h]

/-- Every word, legal or not, completes, and with the one code of R97. -/
theorem runWord_completes (w : Word) (s : State) : CompletesWith (wordCode w s) (runWord w s) := by
  cases hd : decode w with
  | none =>
    rw [wordCode_of_illegal hd]
    exact ⟨_, runWord_of_illegal hd s⟩
  | some i =>
    rw [wordCode_of_decode hd, runWord_of_decode hd]
    exact exec_completes i s

/-! ### From the fields of a word to its code -/

theorem illegalWord_encode (i : Instr) : illegalWord (encode i) = false :=
  (illegalWord_eq_false_iff _).2 ⟨i.mnemonic, inFormat_encode i⟩

/-- Settles O32: a legal word is some command's, and its fields are that command's opcode and count or index. -/
theorem oneCodeByPriority : Obligations.OneCodeByPriority := by
  refine ⟨fun w s => ?_, fun s => ⟨_, runWord_of_illegal (by decide) s, rfl⟩, fun p s => ?_⟩
  · obtain ⟨u, hrun⟩ := runWord_completes w s
    refine ⟨_, hrun, ?_⟩
    rw [complete_err]
    cases hd : decode w with
    | none =>
      rw [wordCode_of_illegal hd, if_pos ((decode_eq_none_iff_illegalWord w).1 hd)]
      rfl
    | some i =>
      obtain rfl := encode_of_decode hd
      rw [wordCode_of_decode hd, illegalWord_encode]
      cases i with
      | nop | expand | subst | fperm => simp [encode, commandCode, Completion.code]
      | keygen | encrypt | decrypt =>
        simp only [commandCode, roundKeysCode, apply_ite Completion.code]
        simp [encode, Completion.code]
      | wrkey | rdkey | roundf | round =>
        simp only [commandCode, keyCode, apply_ite Completion.code]
        simp [encode, Completion.code]
  · obtain ⟨t, hrun, ⟨-, -, herr, -⟩, -⟩ :=
      returnWith_roundKeys_raises_roundsRange (n := 10) (s := s) (enc p) (by decide)
    exact ⟨t, (runWord_of_decode (decode_encrypt_word 10 p) s).trans hrun, herr⟩

/-! ### No edge stops the engine (R99) -/

theorem step_answers_next (s : State) : ∃ t, step s = .next t := by
  cases hr : s.pins.rst with
  | true => exact ⟨_, step_of_reset hr⟩
  | false =>
    cases hb : s.busy with
    | true =>
      by_cases hw : s.wait ≤ 1
      · obtain ⟨u, hrun⟩ := runWord_completes s.cmd s.tick
        exact ⟨_, (step_of_completing hr hb hw).trans hrun⟩
      · exact ⟨_, step_of_waiting hr hb (Nat.lt_of_not_le hw)⟩
    | false =>
      cases hv : s.pins.cmdValid with
      | true => exact ⟨_, step_of_accepting hr hb hv⟩
      | false => exact ⟨_, step_of_idle hr hb hv⟩

/-- Settles O4: an edge runs a word only where it completes one, and every word completes. -/
theorem everyEdgeHasANextState : Obligations.EveryEdgeHasANextState := by
  refine ⟨step_answers_next, fun w s => ?_⟩
  obtain ⟨u, hrun⟩ := runWord_completes w s
  exact ⟨_, hrun, rfl, rfl⟩

/-! ### What an error changes (R96), and that it does not stick (R98) -/

/-- The two ways to end with an error (R96): the completion alone, and the `KEYGEN` that clears the valid bits. -/
theorem runWord_of_err_ne {w : Word} {s t : State} (h : runWord w s = .next t) (he : t.err ≠ 0) :
    (∃ c, t = complete c s) ∨
      ∃ n key, decode w = some (.keygen n key) ∧ 9 < n.toNat ∧ t = complete .roundsRange (invalidateKeys s) := by
  cases hd : decode w with
  | none =>
    rw [runWord_of_illegal hd] at h
    cases h
    exact .inl ⟨_, rfl⟩
  | some i =>
    rw [runWord_of_decode hd] at h
    obtain hc | ⟨v, rfl⟩ | ⟨n, key, rfl, ⟨hn, rfl⟩ | ⟨-, rfl⟩⟩ | ⟨_, _, _, -, -, rfl⟩ := exec_cases h
    case inl => exact .inl hc
    case inr.inr.inl.inl => exact .inr ⟨n, key, rfl, hn, rfl⟩
    all_goals exact absurd rfl he

/-- Settles O33: the `KEYGEN` keeps `RK` and `RESULT` like every other error. -/
theorem errorsChangeNothingElse : Obligations.ErrorsChangeNothingElse := by
  refine ⟨fun w s t h he => ?_, fun w n key s hd hn => ?_⟩
  · obtain ⟨c, rfl⟩ | ⟨n, key, hd, hn, rfl⟩ := runWord_of_err_ne h he
    · exact ⟨rfl, rfl, rfl, rfl, rfl, .inl rfl⟩
    · exact ⟨rfl, rfl, rfl, rfl, rfl, .inr ⟨n, key, hd, hn⟩⟩
  · exact ⟨_, (runWord_of_decode hd s).trans (exec_keygen_of_gt hn key s), rfl, rfl, rfl, rfl⟩

/-- The code reads nothing of the state but the valid bits. -/
theorem wordCode_congr {s t : State} (h : s.rkv = t.rkv) (w : Word) : wordCode w s = wordCode w t := by
  have hkey (i : Nat) : keyValid s i = keyValid t i := by rw [keyValid, keyValid, h]
  have hkeys (n : Nat) : keysValid s n = keysValid t n := by rw [keysValid, keysValid, funext hkey]
  have hcommand : commandCode s = commandCode t := by
    funext i
    cases i <;> simp only [commandCode, roundKeysCode, keyCode, hkey, hkeys]
  rw [wordCode, wordCode, hcommand]

/-- Settles O34: of what stood before, the code depends on the valid bits alone. -/
theorem errIsNotSticky : Obligations.ErrIsNotSticky := by
  refine ⟨fun s hr hb hv => ⟨_, step_of_accepting hr hb hv, rfl, rfl⟩, fun w s e d r => ?_⟩
  obtain ⟨u, hu⟩ := runWord_completes w s
  obtain ⟨v, hv⟩ := runWord_completes w { s with err := e, done := d, result := r }
  refine ⟨_, _, hu, hv, ?_⟩
  rw [complete_err, complete_err]
  exact congrArg Completion.code (wordCode_congr rfl w)

end Sys2Proof.Machine
end

section
/-! Reset (70_reset_and_hazards.md R108, R110, R111) and what an edge after it, or after a completion, accepts (R114),
and that every command in flight completes (R118). -/

namespace Sys2Proof.Machine

/-! ### Reset held for any number of edges (R108) -/

/-- The host drives `rst = 1` at each of the next `k` edges. -/
def ResetHeldFor (k : Nat) (s : State) : Prop := k ≤ s.inputs.length ∧ ∀ p ∈ s.inputs.take k, p.rst = true

theorem resetHeldFor_succ {k : Nat} {s : State} (h : ResetHeldFor (k + 1) s) :
    s.pins.rst = true ∧ ResetHeldFor k (resetEdge s.tick) := by
  obtain ⟨hlen, hrst⟩ := h
  unfold ResetHeldFor State.pins
  cases hi : s.inputs with
  | nil => simp [hi] at hlen
  | cons p ps =>
    rw [hi, List.take_succ_cons, List.forall_mem_cons] at hrst
    obtain ⟨hp, hps⟩ := hrst
    rw [hi, List.length_cons] at hlen
    simp only [resetEdge_inputs, State.tick_inputs, hi, List.tail_cons]
    exact ⟨hp, Nat.le_of_succ_le_succ hlen, hps⟩

/-- However long reset is held, the last edge is a reset edge. -/
theorem edges_of_resetHeldFor (k : Nat) : ∀ s : State, ResetHeldFor (k + 1) s →
    ∃ u, edges (k + 1) s = .next (resetEdge u) := by
  induction k with
  | zero =>
    intro s h
    exact ⟨s.tick, (edges_one s).trans (step_of_reset (resetHeldFor_succ h).1)⟩
  | succ k ih =>
    intro s h
    obtain ⟨hr, hrest⟩ := resetHeldFor_succ h
    rw [edges_succ (step_of_reset hr)]
    exact ih _ hrest

/-- Settles O46: the run ends in a reset edge, whose next state does not depend on what was there. -/
theorem resetEdgeGivesTheResetState : Obligations.ResetEdgeGivesTheResetState := by
  refine ⟨fun s k hk hlen hrst => ?_, fun s hr => ?_⟩
  · obtain ⟨j, rfl⟩ := Nat.exists_eq_add_of_le' hk
    obtain ⟨u, hu⟩ := edges_of_resetHeldFor j s ⟨hlen, hrst⟩
    exact ⟨_, hu, rfl, rfl, rfl, rfl, rfl, rfl, resetEdge_visible u⟩
  · simp [cmdReady, hr]

/-! ### Reset during a command (R110, R102) -/

/-- Settles O47: the reset edge is tested before the completing edge. -/
theorem resetAbortsTheCommandInFlight : Obligations.ResetAbortsTheCommandInFlight :=
  ⟨fun s _ hr => ⟨_, step_of_reset hr, resetEdge_visible s.tick, rfl, rfl, rfl, rfl⟩,
    fun _ _ => step_keeps_cmd_in_flight⟩

/-! ### The first word after reset (R111) -/

/-- Edges without reset and without `cmd_valid` take the samples from an idle engine, and do nothing else. -/
theorem edges_idle (quiet rest : List PortSample) : ∀ s : State, s.busy = false → s.inputs = quiet ++ rest →
    (∀ r ∈ quiet, r.rst = false ∧ r.cmdValid = false) →
    edges quiet.length s = .next { s with inputs := rest } := by
  induction quiet with
  | nil =>
    rintro s - rfl -
    rfl
  | cons r quiet ih =>
    intro s hb hi hquiet
    obtain ⟨⟨hr, hv⟩, hquiet⟩ := List.forall_mem_cons.1 hquiet
    have hpins : s.pins = r := by simp [State.pins, hi]
    rw [List.length_cons, edges_succ (step_of_idle (hpins ▸ hr) hb (hpins ▸ hv))]
    exact ih s.tick hb (by simp [hi]) hquiet

/-- Settles O48: after the reset edge the engine waits, idle and unchanged, for the first valid word. -/
theorem afterResetTheFirstValidWordIsAccepted : Obligations.AfterResetTheFirstValidWordIsAccepted := by
  intro s p q between rest hp hquiet hq hvalid
  have hreset := step_of_reset (s := { s with inputs := p :: (between ++ q :: rest) }) hp
  have hidle := edges_idle between (q :: rest) (resetEdge { s with inputs := between ++ q :: rest }) rfl rfl hquiet
  exact ⟨_, _, (edges_succ hreset).trans hidle, rfl, resetEdge_visible _, step_of_accepting hq rfl hvalid, rfl, rfl⟩

/-! ### A word held over a completion (R114) -/

/-- Settles O49: the completing edge accepts nothing, and leaves an idle engine for the next one. -/
theorem heldWordIsAcceptedAgain : Obligations.HeldWordIsAcceptedAgain := by
  intro s w rest hb hw hi
  have hr : s.pins.rst = false := by simp [State.pins, hi]
  obtain ⟨t, ht⟩ := step_answers_next s
  have hrun : runWord s.cmd s.tick = .next t := (step_of_completing hr hb hw).symm.trans ht
  obtain ⟨hidle, hdone⟩ := runWord_ends_idle hrun
  have hpins : t.pins = ⟨false, true, w⟩ := by simp [State.pins, step_inputs ht, hi]
  refine ⟨t, _, ht, hidle, hdone, step_of_accepting (by rw [hpins]) hidle (by rw [hpins]), rfl, rfl, ?_⟩
  rw [accept_cmd, hpins]

/-! ### Every command completes (R118) -/

/-- Settles O51: the invariant bounds the edges that are left, and the command runs on data that no edge before its
completing one has touched. -/
theorem everyCommandCompletesWithinLatMax : Obligations.EveryCommandCompletesWithinLatMax := by
  refine ⟨latency_bounds, fun s hinv hb hn => ?_⟩
  obtain ⟨-, -, -, hflight, -⟩ := hinv
  obtain ⟨hpos, hmax⟩ := hflight hb
  obtain ⟨n, hwait⟩ := Nat.exists_eq_add_of_le' hpos
  have hnwait : NoResetFor s.wait s := noResetFor_mono hmax hn
  obtain ⟨v, hkeys, hresult, hrun⟩ := edges_wait_eq_runWord n s hb hwait (hwait ▸ hnwait)
  have hdata : DataAlike v s := (DataAlike.refl s).of_keeps hkeys hresult
  obtain ⟨t, u, ht, hu, hvis⟩ := hdata.runWord s.cmd
  obtain ⟨hidle, hdone⟩ := runWord_ends_idle ht
  refine ⟨s.wait, t, u, hpos, hmax, ?_, hidle, hdone, fun j hj => ?_, hu, hvis⟩
  · rw [hwait, hrun, ht]
  · exact edges_busy_of_lt_wait j s hb hj (noResetFor_mono (Nat.le_of_lt hj) hnwait)

end Sys2Proof.Machine
end

section
/-! Hazards (70_reset_and_hazards.md R112, R114, R116): what a command does without keys, what it does a second time,
and which keys it sees after the commands that write them. -/

namespace Sys2Proof.Machine

/-! ### Without keys (R112) -/

theorem keyValid_of_rkv_zero {s : State} (h : s.rkv = 0) (i : Nat) : keyValid s i = false := by
  simp [keyValid, h]

/-- A driver of at least one round needs entry 0. -/
theorem returnWith_roundKeys_raises_of_rkv_zero {s : State} (h : s.rkv = 0) {n : Nat} (hpos : 1 ≤ n) (hn : n ≤ 9)
    (f : List RoundKey → Block) : Raises (returnWith (roundKeys (BitVec.ofNat 4 n) s) f s) s .keyInvalid := by
  have hcount : (BitVec.ofNat 4 n).toNat = n := Nat.mod_eq_of_lt (by omega)
  exact returnWith_roundKeys_raises_keyInvalid (i := 0) f (hcount.trans_le hn) (hpos.trans_eq hcount.symm)
    (keyValid_of_rkv_zero h 0)

theorem returnWith_key_raises_of_rkv_zero {s : State} (h : s.rkv = 0) {w : Nat} (i : Fin 9) (f : RoundKey → BitVec w) :
    Raises (returnWith (keyOperand (BitVec.ofNat 4 i.val) s) f s) s .keyInvalid :=
  returnWith_key_raises_keyInvalid f (keyValid_of_rkv_zero h i.val)

theorem Returns.completes_ok {a : Answer} {s : State} {v : Block} (h : Returns a s v) :
    ∃ t, a = .next t ∧ t.err = 0 ∧ t.done = true ∧ t.busy = false := by
  obtain ⟨t, ht, ⟨hbusy, hdone, herr, -⟩, -⟩ := h
  exact ⟨t, ht, herr, hdone, hbusy⟩

/-- Settles O37: of the six commands that complete, the drivers of no round need no key and the others read none. -/
theorem driversNeedLoadedKeys : Obligations.DriversNeedLoadedKeys := by
  refine ⟨fun i s n hrkv hpos hn hi => ?_, fun i s _ hi => ?_⟩
  · have hidx : n - 1 < 9 := by omega
    obtain ⟨b, rfl | rfl | rfl⟩ | ⟨h, rfl⟩ | rfl := hi
    · exact returnWith_roundKeys_raises_of_rkv_zero hrkv hpos hn (enc b)
    · exact returnWith_roundKeys_raises_of_rkv_zero hrkv hpos hn (dec b)
    · exact returnWith_key_raises_of_rkv_zero hrkv ⟨n - 1, hidx⟩ (feistelRound b)
    · exact returnWith_key_raises_of_rkv_zero hrkv ⟨n - 1, hidx⟩ (feistel h)
    · exact returnWith_key_raises_of_rkv_zero hrkv ⟨n - 1, hidx⟩ id
  · obtain rfl | ⟨h, rfl⟩ | ⟨y, rfl⟩ | ⟨b, rfl | rfl | rfl⟩ := hi
    · exact ⟨_, exec_nop s, rfl, rfl, rfl⟩
    · exact (exec_expand_returns h s).completes_ok
    · exact (exec_subst_returns y s).completes_ok
    · exact (exec_fperm_returns b s).completes_ok
    · exact (exec_encrypt_returns (by decide) (keyValid_below_zero s) b).completes_ok
    · exact (exec_decrypt_returns (by decide) (keyValid_below_zero s) b).completes_ok

/-! ### The same command again (R114) -/

/-- The answer from the next state leaves the observable part as it is. -/
def Idempotent (answer : State → Answer) (s : State) : Prop :=
  ∃ t u, answer s = .next t ∧ answer t = .next u ∧ u.visible = t.visible

theorem Idempotent.of_complete {answer : State → Answer} {s u v : State} {c : Completion}
    (hs : answer s = .next (complete c u)) (ht : answer (complete c u) = .next (complete c v)) (h : DataAlike v u) :
    Idempotent answer s :=
  ⟨_, _, hs, ht, h.complete_visible c⟩

/-- A command that returns a value does not touch what its operand was read from. -/
theorem Idempotent.returnWith {α : Type} {w : Nat} (operand : State → Except Completion α) (f : α → BitVec w)
    (s : State) (hread : ∀ t, KeepsKeys s t → operand t = operand s) :
    Idempotent (fun t => returnWith (operand t) f t) s := by
  cases ho : operand s with
  | error c =>
    have hagain : operand (complete c s) = .error c := ho ▸ hread _ ⟨rfl, rfl⟩
    exact .of_complete (returnWith_error ho f s) (returnWith_error hagain f _) ⟨rfl, rfl, fun _ _ => rfl⟩
  | ok a =>
    have hagain : operand (complete .ok { s with result := (f a).setWidth 12 }) = .ok a :=
      ho ▸ hread _ ⟨rfl, rfl⟩
    exact .of_complete (returnWith_ok ho f s) (returnWith_ok hagain f _) ⟨rfl, rfl, fun _ _ => rfl⟩

theorem KeepsKeys.keyValid_eq {s t : State} (h : KeepsKeys s t) : keyValid t = keyValid s := by
  obtain ⟨-, hrkv⟩ := h
  funext i
  rw [keyValid, hrkv, keyValid]

theorem KeepsKeys.roundKeys_eq {s t : State} (h : KeepsKeys s t) (n : Index) : roundKeys n t = roundKeys n s := by
  have ⟨hrk, _⟩ := h
  rw [roundKeys, roundKeys, keysValid, keysValid, h.keyValid_eq, hrk]

theorem KeepsKeys.keyOperand_eq {s t : State} (h : KeepsKeys s t) (idx : Index) :
    keyOperand idx t = keyOperand idx s := by
  have ⟨hrk, _⟩ := h
  rw [keyOperand, keyOperand, h.keyValid_eq, hrk]

/-- Which data a loaded schedule leaves: only `RESULT` is from before. -/
theorem dataAlike_loadSchedule {n : Nat} {key : MasterKey} {s t : State} (hrkv : t.rkv = validBelow n)
    (hresult : t.result = s.result) (hkeys : ∀ j : Fin 9, j.val < n → t.rk[j] = scheduleKey key j.val) :
    DataAlike t (loadSchedule n key s) where
  rkv := hrkv
  result := hresult
  key := fun j hj => by
    have hn : j.val < n := by
      rw [keyValid, hrkv, validBelow_getLsbD] at hj
      simpa using hj
    rw [hkeys j hn, loadSchedule_key key s hn]

theorem writeKey_twice (j : Fin 9) (k : RoundKey) (s : State) :
    DataAlike (writeKey j k (complete .ok (writeKey j k s))) (writeKey j k s) where
  rkv := by simp [BitVec.or_assoc]
  result := rfl
  key := fun i _ => by simp

theorem exec_idempotent (i : Instr) (s : State) : Idempotent (exec i) s := by
  cases i with
  | nop => exact .of_complete (exec_nop s) (exec_nop _) ⟨rfl, rfl, fun _ _ => rfl⟩
  | keygen n key =>
    by_cases hn : n.toNat ≤ 9
    · exact .of_complete (exec_keygen_of_le hn key s) (exec_keygen_of_le hn key _)
        (dataAlike_loadSchedule rfl rfl fun _ => loadSchedule_key key _)
    · have hgt := Nat.lt_of_not_le hn
      exact .of_complete (exec_keygen_of_gt hgt key s) (exec_keygen_of_gt hgt key _) ⟨rfl, rfl, fun _ _ => rfl⟩
  | wrkey idx key =>
    cases hidx : keyIndex idx with
    | ok j =>
      exact .of_complete (exec_wrkey_of_ok hidx key s) (exec_wrkey_of_ok hidx key _) (writeKey_twice j key s)
    | error e =>
      obtain ⟨hgt, -⟩ := (keyIndex_error_iff idx e).1 hidx
      exact .of_complete (exec_wrkey_of_gt hgt key s) (exec_wrkey_of_gt hgt key _) ⟨rfl, rfl, fun _ _ => rfl⟩
  | encrypt n p => exact .returnWith (roundKeys n) (enc p) s fun _ h => h.roundKeys_eq n
  | decrypt n c => exact .returnWith (roundKeys n) (dec c) s fun _ h => h.roundKeys_eq n
  | rdkey idx => exact .returnWith (keyOperand idx) id s fun _ h => h.keyOperand_eq idx
  | roundf idx half => exact .returnWith (keyOperand idx) (feistel half) s fun _ h => h.keyOperand_eq idx
  | round idx block => exact .returnWith (keyOperand idx) (feistelRound block) s fun _ h => h.keyOperand_eq idx
  | expand half => exact .returnWith (fun _ => .ok half) expand s fun _ _ => rfl
  | subst byte => exact .returnWith (fun _ => .ok byte) sbox s fun _ _ => rfl
  | fperm block => exact .returnWith (fun _ => .ok block) finalPerm s fun _ _ => rfl

/-- Settles O38: no command reads what it writes. -/
theorem repeatedCommandChangesNothing : Obligations.RepeatedCommandChangesNothing := by
  intro w s
  cases hd : decode w with
  | none => exact ⟨_, _, runWord_of_illegal hd s, runWord_of_illegal hd _, rfl⟩
  | some i =>
    obtain ⟨t, u, ht, hu, hvis⟩ := exec_idempotent i s
    exact ⟨t, u, (runWord_of_decode hd s).trans ht, (runWord_of_decode hd t).trans hu, hvis⟩

/-! ### New keys (R116) -/

/-- The scheduled keys are those of R77 under either reading (R78). -/
theorem scheduleKey_eq_keySched (key : MasterKey) : scheduleKey key = keySched Config.ksSignedLeftMask key :=
  funext (scheduleKey_eq key)

theorem afterKeygen_key {n : Nat} (key : MasterKey) (s : State) {i : Fin 9} (hi : i.val < n) :
    (afterKeygen n key s).rk[i] = keySched Config.ksSignedLeftMask key i.val :=
  (loadSchedule_key key s hi).trans (scheduleKey_eq key i.val)

/-- The engine when `WRKEY i, k` has completed. -/
def afterWrkey (i : Fin 9) (k : RoundKey) (s : State) : State := complete .ok (writeKey i k s)

theorem afterWrkey_valid (i : Fin 9) (k : RoundKey) (s : State) : keyValid (afterWrkey i k s) i.val = true := by
  simp [afterWrkey]

theorem afterWrkey_key (i : Fin 9) (k : RoundKey) (s : State) : (afterWrkey i k s).rk[i] = k := by
  simp [afterWrkey]

/-- The entry written is valid, and `WRKEY` takes no other entry's valid bit away. -/
theorem afterWrkey_valid_below {i : Fin 9} {k : RoundKey} {s : State} {n : Nat} (hn : n ≤ 9)
    (hothers : ∀ j : Fin 9, j.val < n → j ≠ i → keyValid s j.val = true) :
    ∀ j < n, keyValid (afterWrkey i k s) j = true := by
  intro j hj
  by_cases hji : j = i.val
  · rw [hji]
    exact afterWrkey_valid i k s
  · have hold : keyValid s j = true := hothers ⟨j, by omega⟩ hj fun h => hji (congrArg Fin.val h)
    simp [afterWrkey, hold]

/-- Settles O31: the state after each of the two commands is written out, and the second one reads it. -/
theorem keygenThenEncryptIsTheCipher : Obligations.KeygenThenEncryptIsTheCipher := by
  refine ⟨fun n key p s hn => ?_, fun i k b s => ?_⟩
  · obtain ⟨u, hu, hret⟩ := exec_encrypt_afterKeygen_returns hn key p s
    rw [scheduleKey_eq_keySched] at hret
    exact ⟨_, u, exec_keygen_of_le hn key s, hu, hret.err_eq, hret.result_eq⟩
  · obtain ⟨u, hu, hret⟩ := exec_round_returns (afterWrkey_valid i k s) b
    rw [afterWrkey_key] at hret
    exact ⟨_, u, exec_wrkey_ofNat i k s, hu, hret.err_eq, hret.result_eq⟩

/-- Settles O55: each reader's own rule, at the state after the writer. -/
theorem everyOtherKeyCommandSeesTheNewKeys : Obligations.EveryOtherKeyCommandSeesTheNewKeys := by
  refine ⟨fun n key s hn => ⟨afterKeygen n.toNat key s, exec_keygen_of_le hn key s, fun c => ?_, fun i hi => ?_⟩,
    fun i k s => ⟨afterWrkey i k s, exec_wrkey_ofNat i k s, ?_, fun h => ?_, fun n hn _ hothers => ?_⟩⟩
  · rw [← scheduleKey_eq_keySched]
    exact exec_decrypt_afterKeygen_returns hn key c s
  · have hv := afterKeygen_valid hn key s i.val hi
    rw [← afterKeygen_key key s hi]
    exact ⟨exec_rdkey_returns hv, exec_roundf_returns hv, exec_round_returns hv⟩
  · have hret := exec_rdkey_returns (afterWrkey_valid i k s)
    rwa [afterWrkey_key] at hret
  · have hret := exec_roundf_returns (afterWrkey_valid i k s) h
    rwa [afterWrkey_key] at hret
  · have hv := afterWrkey_valid_below (k := k) hn hothers
    exact ⟨exec_encrypt_returns hn hv, exec_decrypt_returns hn hv⟩

end Sys2Proof.Machine
end

section
/-! The reference engine (70_reset_and_hazards.md R119, R120) conforms: its run through one command is a chain of busy
edges that ends in the observable state of the command's rule. -/

namespace Sys2Proof.Machine

/-! ### A run through one command -/

/-- The reference engine, a command in flight in `s`, completes at the edge of the given number, and what a host then
observes is `v`. -/
inductive RefCompletes (v : Visible) : Nat → State → Prop
  /-- The next edge is the completing one. -/
  | last {s t : State} (busy : s.busy = true) (edge : refStep s = .next t) (ends : t.visible = v) :
    RefCompletes v 1 s
  /-- The next edge is inside the command. -/
  | more {k : Nat} {s t : State} (busy : s.busy = true) (edge : refStep s = .next t) (rest : RefCompletes v k t) :
    RefCompletes v (k + 1) s

theorem RefCompletes.busy_before {v : Visible} {k : Nat} {s : State} (h : RefCompletes v k s) :
    ∀ j < k, ∃ t, refEdges j s = .next t ∧ t.busy = true := by
  induction h with
  | last hbusy _ _ =>
    intro j hj
    obtain rfl : j = 0 := Nat.lt_one_iff.1 hj
    exact ⟨_, rfl, hbusy⟩
  | more hbusy hedge _ ih =>
    intro j hj
    cases j with
    | zero => exact ⟨_, rfl, hbusy⟩
    | succ j =>
      rw [refEdges_succ hedge]
      exact ih j (Nat.lt_of_succ_lt_succ hj)

theorem RefCompletes.ends {v : Visible} {k : Nat} {s : State} (h : RefCompletes v k s) :
    ∃ t, refEdges k s = .next t ∧ t.visible = v := by
  induction h with
  | last _ hedge hends =>
    rw [refEdges_succ hedge]
    exact ⟨_, rfl, hends⟩
  | more _ hedge _ ih =>
    rw [refEdges_succ hedge]
    exact ih

/-! ### Edges -/

theorem refStep_of_busy {s : State} (hr : s.pins.rst = false) (hb : s.busy = true) :
    refStep s = refBusyEdge s.tick := by
  simp [refStep, hr, hb]

theorem refStep_of_accepting {s : State} (hr : s.pins.rst = false) (hb : s.busy = false)
    (hv : s.pins.cmdValid = true) : refStep s = .next (refAccept s.pins.cmd s.tick) := by
  simp [refStep, hr, hb, hv]

/-- Acceptance chooses the loop registers by the command; the rest does not depend on it. -/
theorem refAccept_eq (w : Word) (s : State) : ∃ st rc, refAccept w s =
    { s with busy := true, done := false, err := 0, cmd := w, draws := s.draws + 1, st := st, rc := rc } := by
  unfold refAccept refLoopStart
  split <;> exact ⟨_, _, rfl⟩

@[simp] theorem refAccept_busy (w : Word) (s : State) : (refAccept w s).busy = true := by
  obtain ⟨_, _, h⟩ := refAccept_eq w s
  rw [h]

@[simp] theorem refAccept_cmd (w : Word) (s : State) : (refAccept w s).cmd = w := by
  obtain ⟨_, _, h⟩ := refAccept_eq w s
  rw [h]

@[simp] theorem refAccept_inputs (w : Word) (s : State) : (refAccept w s).inputs = s.inputs := by
  obtain ⟨_, _, h⟩ := refAccept_eq w s
  rw [h]

theorem refAccept_dataAlike (w : Word) (s : State) : DataAlike (refAccept w s.tick) s := by
  obtain ⟨_, _, h⟩ := refAccept_eq w s.tick
  rw [h]
  exact ⟨rfl, rfl, fun _ _ => rfl⟩

/-! Which command is in flight chooses the loop registers at acceptance and the rule of each edge. -/

theorem refAccept_of_encrypt {w : Word} {n : Index} {p : Block} (h : decode w = some (.encrypt n p)) (s : State) :
    refAccept w s = { s with
      busy := true, done := false, err := 0, cmd := w, draws := s.draws + 1, st := p, rc := 0 } := by
  simp [refAccept, refLoopStart, h]

theorem refAccept_of_decrypt {w : Word} {n : Index} {c : Block} (h : decode w = some (.decrypt n c)) (s : State) :
    refAccept w s = { s with
      busy := true, done := false, err := 0, cmd := w, draws := s.draws + 1, st := c, rc := n - 1 } := by
  simp [refAccept, refLoopStart, h]

theorem refAccept_of_keygen {w : Word} {n : Index} {key : MasterKey} (h : decode w = some (.keygen n key)) (s : State) :
    refAccept w s = { s with
      busy := true, done := false, err := 0, cmd := w, draws := s.draws + 1, rc := 0 } := by
  simp [refAccept, refLoopStart, h]

section BusyEdge
variable {w : Word} {n : Index} {s : State} (hcmd : s.cmd = w)
include hcmd

theorem refBusyEdge_of_encrypt {p : Block} (h : decode w = some (.encrypt n p)) :
    refBusyEdge s = refDriverEdge n n (s.rc + 1) s := by
  simp [refBusyEdge, hcmd, h]

theorem refBusyEdge_of_decrypt {c : Block} (h : decode w = some (.decrypt n c)) :
    refBusyEdge s = refDriverEdge n 15 (s.rc - 1) s := by
  simp [refBusyEdge, hcmd, h]

theorem refBusyEdge_of_keygen {key : MasterKey} (h : decode w = some (.keygen n key)) :
    refBusyEdge s = refKeygenEdge n key s := by
  simp [refBusyEdge, hcmd, h]

end BusyEdge

/-- Below a count, `RC` does not wrap around. -/
theorem toNat_add_one {rc n : BitVec 4} (h : rc.toNat < n.toNat) : (rc + 1).toNat = rc.toNat + 1 := by
  bv_omega

/-! ### The drivers' loop -/

section Driver
variable {n last next : BitVec 4} {s : State}

theorem refDriverEdge_of_error {e : Completion} (h : roundKeys n s = .error e) :
    refDriverEdge n last next s = raise e s := by
  simp [refDriverEdge, h]

theorem refDriverEdge_of_last {ks : List RoundKey} (h : roundKeys n s = .ok ks) (hrc : s.rc = last) :
    refDriverEdge n last next s = .next (complete .ok { s with result := finalPerm s.st }) := by
  simp [refDriverEdge, h, hrc, returnValue]

theorem refDriverEdge_of_round {ks : List RoundKey} (h : roundKeys n s = .ok ks) (hrc : s.rc ≠ last) :
    refDriverEdge n last next s = .next (refRound next s) := by
  simp [refDriverEdge, h, hrc]

end Driver

/-- Counted from `rc` by `move`, the loop meets these round keys in this order, and then `last`. -/
def LoopKeys (rk : Vector RoundKey 9) (move : BitVec 4 → BitVec 4) (last : BitVec 4) :
    BitVec 4 → List RoundKey → Prop
  | rc, [] => rc = last
  | rc, k :: ks => rc ≠ last ∧ rk.toList.getD rc.toNat 0 = k ∧ LoopKeys rk move last (move rc) ks

/-- One edge for each round key, and one for the final permutation. -/
theorem refCompletes_of_loopKeys {w : Word} {n last : BitVec 4} {move : BitVec 4 → BitVec 4} {valid : List RoundKey}
    (hedge : ∀ x : State, x.cmd = w → refBusyEdge x = refDriverEdge n last (move x.rc) x) {v : State}
    (ks : List RoundKey) : ∀ s : State, s.busy = true → s.cmd = w → roundKeys n s = .ok valid →
      LoopKeys s.rk move last s.rc ks → KeepsKeys s v → v.result = finalPerm (ks.foldl feistelRound s.st) →
      NoResetFor (ks.length + 1) s → RefCompletes (complete .ok v).visible (ks.length + 1) s := by
  induction ks with
  | nil =>
    rintro s hb hcmd hvalid hrc ⟨hrk, hrkv⟩ hresult hn
    have hstep := (refStep_of_busy (noResetFor_succ hn).1 hb).trans (hedge s.tick hcmd)
    have hdata : DataAlike { s.tick with result := finalPerm s.st } v :=
      (DataAlike.refl v).of_keeps ⟨hrk.symm, hrkv.symm⟩ hresult.symm
    exact .last hb (hstep.trans (refDriverEdge_of_last hvalid hrc)) (hdata.complete_visible .ok)
  | cons k ks ih =>
    rintro s hb hcmd hvalid ⟨hrc, rfl, hloop⟩ hkeys hresult hn
    obtain ⟨hr, hrest⟩ := noResetFor_succ hn
    have hstep := (refStep_of_busy hr hb).trans (hedge s.tick hcmd)
    exact .more hb (hstep.trans (refDriverEdge_of_round hvalid hrc))
      (ih (refRound (move s.rc) s.tick) hb hcmd hvalid hloop hkeys hresult (hrest _ rfl))

theorem getD_toNat (rk : Vector RoundKey 9) {rc : BitVec 4} (h : rc.toNat < 9) :
    rk.toList.getD rc.toNat 0 = rk[rc.toNat] := by
  simp [h]

/-- `ENCRYPT n` counts up and stops at `n`. -/
theorem loopKeys_up (rk : Vector RoundKey 9) {n : BitVec 4} (hn : n.toNat ≤ 9) (m : Nat) : ∀ rc : BitVec 4,
    rc.toNat + m = n.toNat → LoopKeys rk (· + 1) n rc ((rk.toList.take n.toNat).drop rc.toNat) := by
  induction m with
  | zero =>
    intro rc hrc
    obtain rfl : rc = n := BitVec.eq_of_toNat_eq hrc
    simp [LoopKeys]
  | succ m ih =>
    intro rc hrc
    have hlt : rc.toNat < n.toNat := by omega
    have hlen : rc.toNat < (rk.toList.take n.toNat).length := by
      rw [List.length_take, Vector.length_toList]
      omega
    have hsucc := toNat_add_one hlt
    rw [List.drop_eq_getElem_cons hlen, ← hsucc]
    refine ⟨?_, ?_, ih (rc + 1) (by omega)⟩
    · rintro rfl
      exact Nat.lt_irrefl _ hlt
    · rw [getD_toNat rk (by omega)]
      simp

/-- `DECRYPT n` counts down from `n - 1` and stops when it has passed 0. -/
theorem loopKeys_down (rk : Vector RoundKey 9) (m : Nat) : ∀ n : BitVec 4, n.toNat = m → m ≤ 9 →
    LoopKeys rk (· - 1) 15 (n - 1) (rk.toList.take m).reverse := by
  induction m with
  | zero =>
    intro n hn _
    obtain rfl : n = 0 := BitVec.eq_of_toNat_eq hn
    rfl
  | succ m ih =>
    intro n hn hm
    have hlen : m < rk.toList.length := by
      rw [Vector.length_toList]
      omega
    have hrc : (n - 1).toNat = m := by bv_omega
    rw [← List.take_concat_get' _ m hlen, List.reverse_concat]
    refine ⟨?_, ?_, ih (n - 1) hrc (by omega)⟩
    · intro hlast
      have h15 : (n - 1).toNat = 15 := congrArg BitVec.toNat hlast
      omega
    · rw [getD_toNat rk (by omega)]
      simp only [hrc, Vector.getElem_toList]

/-! ### The key schedule's loop -/

section Keygen
variable {n : Index} {key : MasterKey} {s : State}

theorem refKeygenEdge_of_gt (h : 9 < n.toNat) :
    refKeygenEdge n key s = .next (complete .roundsRange (invalidateKeys s)) := by
  simp [refKeygenEdge, Config.nMax, h, raise]

theorem refKeygenEdge_of_zero : refKeygenEdge 0 key s = .next (complete .ok (invalidateKeys s)) := by
  simp [refKeygenEdge]

theorem refKeygenEdge_of_last (hn : n.toNat ≤ 9) (hlt : s.rc.toNat < n.toNat) (hrc : s.rc + 1 = n) :
    refKeygenEdge n key s = .next (complete .ok { refWriteKey key s with rkv := validBelow n.toNat }) := by
  have h0 : n ≠ 0 := fun h => absurd (h ▸ hlt) (Nat.not_lt_zero _)
  have hle : ¬ Config.nMax < n.toNat := Nat.not_lt.2 hn
  rw [refKeygenEdge, if_neg hle, if_neg h0, if_pos hrc]

theorem refKeygenEdge_of_more (hn : n.toNat ≤ 9) (hlt : s.rc.toNat < n.toNat) (hrc : s.rc + 1 ≠ n) :
    refKeygenEdge n key s = .next (refWriteKey key s) := by
  have h0 : n ≠ 0 := fun h => absurd (h ▸ hlt) (Nat.not_lt_zero _)
  have hle : ¬ Config.nMax < n.toNat := Nat.not_lt.2 hn
  rw [refKeygenEdge, if_neg hle, if_neg h0, if_neg hrc]

/-- The entries below `i` hold the schedule. -/
def ScheduledBelow (i : Nat) (key : MasterKey) (s : State) : Prop :=
  ∀ j : Fin 9, j.val < i → s.rk[j] = scheduleKey key j.val

theorem ScheduledBelow.refWriteKey (h : ScheduledBelow s.rc.toNat key s) :
    ScheduledBelow (s.rc.toNat + 1) key (refWriteKey key s) := by
  intro j hj
  by_cases hji : s.rc.toNat = j.val
  · simp [Machine.refWriteKey, hji]
  · simpa [Machine.refWriteKey, Vector.getElem_setIfInBounds_ne, hji] using h j (by omega)

end Keygen

/-- One edge for each round key that is not written yet, the last of them completing. -/
theorem refCompletes_of_scheduledBelow {w : Word} {n : Index} {key : MasterKey}
    (hd : decode w = some (.keygen n key)) (hn : n.toNat ≤ 9) {v : State} (m : Nat) :
    ∀ s : State, s.busy = true → s.cmd = w → s.rc.toNat + (m + 1) = n.toNat → ScheduledBelow s.rc.toNat key s →
      s.result = v.result → NoResetFor (m + 1) s →
      RefCompletes (complete .ok (loadSchedule n.toNat key v)).visible (m + 1) s := by
  induction m with
  | zero =>
    intro s hb hcmd hrc hkeys hresult hnr
    have hlt : s.rc.toNat < n.toNat := by omega
    have hlast : s.rc + 1 = n := BitVec.eq_of_toNat_eq ((toNat_add_one hlt).trans hrc)
    have hstep := (refStep_of_busy (noResetFor_succ hnr).1 hb).trans (refBusyEdge_of_keygen (s := s.tick) hcmd hd)
    refine .last hb (hstep.trans (refKeygenEdge_of_last hn hlt hlast)) (DataAlike.complete_visible ?_ .ok)
    exact dataAlike_loadSchedule rfl hresult fun j hj => hkeys.refWriteKey j (hrc ▸ hj)
  | succ m ih =>
    intro s hb hcmd hrc hkeys hresult hnr
    have hlt : s.rc.toNat < n.toNat := by omega
    have hsucc := toNat_add_one hlt
    have hmore : s.rc + 1 ≠ n := by
      intro h
      rw [h] at hsucc
      omega
    obtain ⟨hr, hrest⟩ := noResetFor_succ hnr
    have hstep := (refStep_of_busy hr hb).trans (refBusyEdge_of_keygen (s := s.tick) hcmd hd)
    have hleft : (s.rc + 1).toNat + (m + 1) = n.toNat := by omega
    have hwritten : ScheduledBelow (s.rc + 1).toNat key (refWriteKey key s.tick) := hsucc ▸ hkeys.refWriteKey
    exact .more hb (hstep.trans (refKeygenEdge_of_more hn hlt hmore))
      (ih (refWriteKey key s.tick) hb hcmd hleft hwritten hresult (hrest _ rfl))

/-! ### Every command -/

/-- The word is a command of `n` rounds. -/
def IsDriver (w : Word) (n : Index) : Prop :=
  (∃ p, decode w = some (.encrypt n p)) ∨ ∃ c, decode w = some (.decrypt n c)

section Latency
variable {w : Word} {n : Index} {s : State}

theorem refLatency_of_rounds (hd : IsDriver w n) {ks : List RoundKey} (h : roundKeys n s = .ok ks) :
    refLatency w s = n.toNat + 1 := by
  obtain ⟨p, hd⟩ | ⟨c, hd⟩ := hd <;> simp [refLatency, hd, h]

theorem refLatency_of_rounds_error (hd : IsDriver w n) {e : Completion} (h : roundKeys n s = .error e) :
    refLatency w s = 1 := by
  obtain ⟨p, hd⟩ | ⟨c, hd⟩ := hd <;> simp [refLatency, hd, h]

theorem refLatency_of_keygen {key : MasterKey} (hn : n.toNat ≤ 9) (hd : decode w = some (.keygen n key)) :
    refLatency w s = max n.toNat 1 := by
  simp [refLatency, hd, Config.nMax, Nat.not_lt.2 hn]

theorem refLatency_of_keygen_gt {key : MasterKey} (hn : 9 < n.toNat) (hd : decode w = some (.keygen n key)) :
    refLatency w s = 1 := by
  simp [refLatency, hd, Config.nMax, hn]

theorem refLatency_bounds (w : Word) (s : State) : 1 ≤ refLatency w s ∧ refLatency w s ≤ 10 := by
  have drivers (n : Index) (hd : IsDriver w n) : 1 ≤ refLatency w s ∧ refLatency w s ≤ 10 := by
    cases hk : roundKeys n s with
    | ok ks =>
      obtain ⟨hn, -, -⟩ := (roundKeys_ok_iff n s ks).1 hk
      rw [refLatency_of_rounds hd hk]
      omega
    | error e =>
      rw [refLatency_of_rounds_error hd hk]
      omega
  cases hd : decode w with
  | none => simp [refLatency, hd]
  | some i =>
    cases i with
    | encrypt n p => exact drivers n (.inl ⟨p, hd⟩)
    | decrypt n c => exact drivers n (.inr ⟨c, hd⟩)
    | keygen n key =>
      by_cases hn : n.toNat ≤ 9
      · rw [refLatency_of_keygen hn hd]
        omega
      · rw [refLatency_of_keygen_gt (Nat.lt_of_not_le hn) hd]
        omega
    | _ => simp [refLatency, hd]

end Latency

section Commands
variable {w : Word} {s : State}

/-- The reference engine runs the word from the edge that accepts it to the observable state of its rule, in its
reference latency. -/
def RefConforms (w : Word) (s : State) : Prop :=
  NoResetFor (refLatency w s) (refAccept w s.tick) →
    ∃ u, runWord w s = .next u ∧ RefCompletes u.visible (refLatency w s) (refAccept w s.tick)

/-- A command that the engine runs whole at its first edge, as it does every one that has no loop or raises an error. -/
theorem refConforms_of_runWord (hlat : refLatency w s = 1)
    (hedge : ∀ x : State, x.cmd = w → DataAlike x s → refBusyEdge x = runWord w x) : RefConforms w s := by
  intro hn
  rw [hlat] at hn ⊢
  have hdata : DataAlike (refAccept w s.tick).tick s := (refAccept_dataAlike w s).of_keeps ⟨rfl, rfl⟩ rfl
  have hstep := refStep_of_busy (noResetFor_succ hn).1 (refAccept_busy w s.tick)
  obtain ⟨t, u, ht, hu, hvis⟩ := hdata.runWord w
  rw [hedge (refAccept w s.tick).tick (refAccept_cmd w s.tick) hdata, ht] at hstep
  exact ⟨u, hu, .last (refAccept_busy w s.tick) hstep hvis⟩

/-- What tells the loops of the two drivers apart (R120): the block at acceptance, where `RC` starts and ends, how it
moves, and the order in which it meets the round keys. -/
structure DriverLoop where
  block : Block
  first : BitVec 4
  last : BitVec 4
  move : BitVec 4 → BitVec 4
  order : List RoundKey → List RoundKey

def encryptLoop (n : Index) (p : Block) : DriverLoop := ⟨p, 0, n, (· + 1), id⟩

def decryptLoop (n : Index) (c : Block) : DriverLoop := ⟨c, n - 1, 15, (· - 1), List.reverse⟩

/-- The word is a driver command whose loop is `l`, in the reference engine and in its rule. -/
structure RunsLoop (w : Word) (n : Index) (l : DriverLoop) : Prop where
  driver : IsDriver w n
  accept : ∀ s : State, refAccept w s = { s with
    busy := true, done := false, err := 0, cmd := w, draws := s.draws + 1, st := l.block, rc := l.first }
  edge : ∀ s : State, s.cmd = w → refBusyEdge s = refDriverEdge n l.last (l.move s.rc) s
  keys : ∀ rk : Vector RoundKey 9, n.toNat ≤ 9 →
    LoopKeys rk l.move l.last l.first (l.order (rk.toList.take n.toNat))
  order_length : ∀ ks, (l.order ks).length = ks.length
  rule : ∀ s : State, runWord w s =
    returnWith (roundKeys n s) (fun ks => finalPerm ((l.order ks).foldl feistelRound l.block)) s

theorem runsLoop_encrypt {n : Index} {p : Block} (hd : decode w = some (.encrypt n p)) :
    RunsLoop w n (encryptLoop n p) where
  driver := .inl ⟨p, hd⟩
  accept := refAccept_of_encrypt hd
  edge := fun _ hcmd => refBusyEdge_of_encrypt hcmd hd
  keys := fun rk hn => loopKeys_up rk hn n.toNat 0 (Nat.zero_add _)
  order_length := fun _ => rfl
  rule := runWord_of_decode hd

theorem runsLoop_decrypt {n : Index} {c : Block} (hd : decode w = some (.decrypt n c)) :
    RunsLoop w n (decryptLoop n c) where
  driver := .inr ⟨c, hd⟩
  accept := refAccept_of_decrypt hd
  edge := fun _ hcmd => refBusyEdge_of_decrypt hcmd hd
  keys := fun rk hn => loopKeys_down rk n.toNat n rfl hn
  order_length := fun _ => List.length_reverse
  rule := runWord_of_decode hd

theorem refConforms_of_runsLoop {n : Index} {l : DriverLoop} (h : RunsLoop w n l) : RefConforms w s := by
  cases hk : roundKeys n s with
  | error e =>
    refine refConforms_of_runWord (refLatency_of_rounds_error h.driver hk) fun x hcmd hx => ?_
    have hkx : roundKeys n x = .error e := (hx.roundKeys n).trans hk
    rw [h.edge x hcmd, refDriverEdge_of_error hkx, h.rule, returnWith_error hkx, raise]
  | ok ks =>
    intro hnr
    have hrun := (h.rule s).trans (returnWith_ok hk _ s)
    rw [BitVec.setWidth_eq] at hrun
    obtain ⟨hn, -, rfl⟩ := (roundKeys_ok_iff n s ks).1 hk
    have hlat : refLatency w s = (l.order (firstKeys s n.toNat)).length + 1 := by
      rw [refLatency_of_rounds h.driver hk, h.order_length, firstKeys_length s hn]
    rw [hlat, h.accept] at hnr ⊢
    exact ⟨_, hrun, refCompletes_of_loopKeys h.edge _ _ rfl rfl hk (h.keys s.rk hn) ⟨rfl, rfl⟩ rfl hnr⟩

theorem refConforms_keygen {n : Index} {key : MasterKey} (hd : decode w = some (.keygen n key)) : RefConforms w s := by
  by_cases hn : n.toNat ≤ 9
  · intro hnr
    refine ⟨_, (runWord_of_decode hd s).trans (exec_keygen_of_le hn key s), ?_⟩
    rw [refLatency_of_keygen hn hd, refAccept_of_keygen hd] at hnr ⊢
    by_cases h0 : n = 0
    · subst h0
      have hstep := (refStep_of_busy (noResetFor_succ hnr).1 rfl).trans (refBusyEdge_of_keygen rfl hd)
      refine .last rfl (hstep.trans refKeygenEdge_of_zero) (DataAlike.complete_visible ?_ .ok)
      exact dataAlike_loadSchedule rfl rfl fun j hj => absurd hj (Nat.not_lt_zero j.val)
    · have hne : n.toNat ≠ 0 := fun h => h0 (BitVec.eq_of_toNat_eq h)
      obtain ⟨m, hm⟩ := Nat.exists_eq_succ_of_ne_zero hne
      have hlat : max n.toNat 1 = m + 1 := by omega
      rw [hlat] at hnr ⊢
      refine refCompletes_of_scheduledBelow hd hn m _ rfl rfl ?_ ?_ rfl hnr
      · exact (Nat.zero_add _).trans hm.symm
      · exact fun j hj => absurd hj (Nat.not_lt_zero j.val)
  · have hgt := Nat.lt_of_not_le hn
    refine refConforms_of_runWord (refLatency_of_keygen_gt hgt hd) fun x hcmd _ => ?_
    rw [refBusyEdge_of_keygen hcmd hd, refKeygenEdge_of_gt hgt, runWord_of_decode hd, exec_keygen_of_gt hgt]

theorem refConforms (w : Word) (s : State) : RefConforms w s := by
  cases hd : decode w with
  | none =>
    refine refConforms_of_runWord (by simp [refLatency, hd]) fun x hcmd _ => ?_
    simp [refBusyEdge, runWord, hcmd, hd]
  | some i =>
    cases i with
    | encrypt n p => exact refConforms_of_runsLoop (runsLoop_encrypt hd)
    | decrypt n c => exact refConforms_of_runsLoop (runsLoop_decrypt hd)
    | keygen n key => exact refConforms_keygen hd
    | _ =>
      refine refConforms_of_runWord (by simp [refLatency, hd]) fun x hcmd _ => ?_
      simp [refBusyEdge, runWord, hcmd, hd]

end Commands

/-- Settles O54: the accepting edge, then the run through the command. -/
theorem referenceEngineConforms : Obligations.ReferenceEngineConforms := by
  intro s hb hv hn
  obtain ⟨hpos, hmax⟩ := refLatency_bounds s.pins.cmd s
  obtain ⟨hr, hrest⟩ := noResetFor_succ hn
  have hacc := refStep_of_accepting hr hb hv
  obtain ⟨u, hu, hcompletes⟩ := refConforms s.pins.cmd s (hrest _ (refAccept_inputs s.pins.cmd s.tick))
  refine ⟨hpos, hmax, fun k hk hle => ?_, ?_⟩
  · obtain ⟨j, rfl⟩ := Nat.exists_eq_add_of_le' hk
    rw [refEdges_succ hacc]
    exact hcompletes.busy_before j hle
  · obtain ⟨t, ht, hvis⟩ := hcompletes.ends
    exact ⟨t, u, (refEdges_succ hacc).trans ht, hu, hvis⟩

end Sys2Proof.Machine
end
